-- ==== Sys2Proof/Word.lean ====
section
/-! DEFINITION. The word types of the CORE (spec/00_scope.md R5, R6): every one is unsigned, and arithmetic on them wraps
only where a rule truncates. -/

namespace Sys2Proof

/-- A memory byte, a general register, a timer: 8 bits (R5 REG_WIDTH, TIMER_WIDTH; R51). -/
abbrev Byte := BitVec 8

/-- An instruction word, the PC, the index register I, a stack slot: 16 bits (R5). -/
abbrev Word := BitVec 16

/-- A nibble: a register index, a key index, a sprite height, a decode key (R7, R71). -/
abbrev Nibble := BitVec 4

/-- The 12-bit address operand NNN (R71, R72). -/
abbrev Addr := BitVec 12

/-- The index of the flag register VF = V[15] (10_state.md R23). -/
abbrev VF : Nibble := 15

end Sys2Proof
end

