-- ==== Sys2Proof/Machine/Flags.lean ====
section
/-! DEFINITION. The values written to VF (10_state.md R24) and the 8-bit results that go with them (43_alu.md R140 (a)): each
computed exactly on naturals and then narrowed (00_scope.md R6). -/

namespace Sys2Proof.Machine

/-- 1 iff the condition holds, else 0. -/
def flagOf (c : Bool) : Byte := if c then 1 else 0

/-- a + b, wrapped to 8 bits (R145, R161). -/
def sum8 (a b : Byte) : Byte := BitVec.ofNat 8 (a.toNat + b.toNat)

/-- a - b, wrapped to 8 bits (R146, R148). -/
def diff8 (a b : Byte) : Byte := BitVec.ofNat 8 (a.toNat + 256 - b.toNat)

/-- a >> 1 (R147). -/
def half8 (a : Byte) : Byte := BitVec.ofNat 8 (a.toNat / 2)

/-- (a << 1) mod 256 (R149). -/
def double8 (a : Byte) : Byte := BitVec.ofNat 8 (a.toNat * 2)

/-- ADD: 1 iff a + b > 255 (R145). -/
def carryFlag (a b : Byte) : Byte := flagOf (a.toNat + b.toNat > 255)

/-- SUB of b from a: 0 iff b > a (borrow), else 1 (R146; SUBN swaps the operands, R148). -/
def noBorrowFlag (a b : Byte) : Byte := flagOf (!(b.toNat > a.toNat))

/-- SHR: bit 0 before the shift (R147). -/
def shiftOutLowFlag (a : Byte) : Byte := BitVec.ofNat 8 (a.toNat % 2)

/-- SHL: bit 7 before the shift (R149). -/
def shiftOutHighFlag (a : Byte) : Byte := BitVec.ofNat 8 (a.toNat / 128)

/-- ADD I: 1 iff the exact sum I + VX exceeds 0xFFF (44_immediate_index_random.md R163). -/
def indexOverflowFlag (i : Word) (a : Byte) : Byte := flagOf (i.toNat + a.toNat > 0xFFF)

end Sys2Proof.Machine
end

