-- ==== Sys2Proof/Syntax.lean ====
section
/-! DEFINITION. The instructions: one constructor per row of spec/opcode_table.json (30_encoding.md R84, 35 rows).

A term holds EVERY bit of the word that the row's pattern leaves open: the operands X, Y, N, NN, NNN of R71, and in the
arguments named `ign` the bits that R73 marks `?`, which no decode table examines (R85). No meaning depends on an `ign`
argument, but the diagnostic of a decode error reports the raw word (60_exceptions.md R202), and with those bits in the
term the word can be written back exactly (notes/assumptions/2.md). -/

namespace Sys2Proof

inductive Instr where
  /-- 0NNN with a low nibble that is neither 0 nor E: SYS, an UNRECOGNIZED word (R124, R83). -/
  | sys (nnn : Addr)
  /-- 0??0: CLS (R170). -/
  | cls (ign : Byte)
  /-- 0??E: RET (R122). -/
  | ret (ign : Byte)
  /-- 1NNN: JP NNN (R120). -/
  | jp (nnn : Addr)
  /-- 2NNN: CALL NNN (R121). -/
  | call (nnn : Addr)
  /-- 3XNN: SE VX, NN (R130). -/
  | seImm (x : Nibble) (nn : Byte)
  /-- 4XNN: SNE VX, NN (R131). -/
  | sneImm (x : Nibble) (nn : Byte)
  /-- 5XY?: SE VX, VY (R132). -/
  | seReg (x y : Nibble) (ign : Nibble)
  /-- 6XNN: LD VX, NN (R160). -/
  | ldImm (x : Nibble) (nn : Byte)
  /-- 7XNN: ADD VX, NN (R161). -/
  | addImm (x : Nibble) (nn : Byte)
  /-- 8XY0: LD VX, VY (R141). -/
  | ldReg (x y : Nibble)
  /-- 8XY1: OR VX, VY (R142). -/
  | orReg (x y : Nibble)
  /-- 8XY2: AND VX, VY (R143). -/
  | andReg (x y : Nibble)
  /-- 8XY3: XOR VX, VY (R144). -/
  | xorReg (x y : Nibble)
  /-- 8XY4: ADD VX, VY (R145). -/
  | addReg (x y : Nibble)
  /-- 8XY5: SUB VX, VY (R146). -/
  | subReg (x y : Nibble)
  /-- 8XY6: SHR VX; the Y field is decoded and not used (R147). -/
  | shr (x : Nibble) (ign : Nibble)
  /-- 8XY7: SUBN VX, VY (R148). -/
  | subnReg (x y : Nibble)
  /-- 8XYE: SHL VX; the Y field is decoded and not used (R149). -/
  | shl (x : Nibble) (ign : Nibble)
  /-- 9XY?: SNE VX, VY (R133). -/
  | sneReg (x y : Nibble) (ign : Nibble)
  /-- ANNN: LD I, NNN (R162). -/
  | ldI (nnn : Addr)
  /-- BNNN: JP V0, NNN (R123). -/
  | jpV0 (nnn : Addr)
  /-- CXNN: RND VX, NN (R164). -/
  | rnd (x : Nibble) (nn : Byte)
  /-- DXYN: DRW VX, VY, N (R171). -/
  | drw (x y n : Nibble)
  /-- EX?E: SKP VX (R180). -/
  | skp (x : Nibble) (ign : Nibble)
  /-- EX?1: SKNP VX (R181). -/
  | sknp (x : Nibble) (ign : Nibble)
  /-- FX?7: LD VX, DT (R183). -/
  | ldVxDt (x : Nibble) (ign : Nibble)
  /-- FX?A: LD VX, K (R182). -/
  | ldVxK (x : Nibble) (ign : Nibble)
  /-- FX15: LD DT, VX (R184). -/
  | ldDtVx (x : Nibble)
  /-- FX?8: LD ST, VX (R185). -/
  | ldStVx (x : Nibble) (ign : Nibble)
  /-- FX?E: ADD I, VX (R163). -/
  | addI (x : Nibble) (ign : Nibble)
  /-- FX?9: LD F, VX (R190). -/
  | ldF (x : Nibble) (ign : Nibble)
  /-- FX?3: LD B, VX (R191). -/
  | ldB (x : Nibble) (ign : Nibble)
  /-- FX55: LD [I], VX (R192). -/
  | storeRegs (x : Nibble)
  /-- FX65: LD VX, [I] (R193). -/
  | loadRegs (x : Nibble)
  deriving DecidableEq, Repr

end Sys2Proof
end

