-- ==== Sys2Proof/WellFormed.lean ====
section
/-! DEFINITION. Which terms of `Instr` stand for a word. The field widths are in the types, so one check is left: SYS is
the row of lowest priority, and a 0NNN word whose low nibble is 0 or E is CLS or RET (30_encoding.md R75, R83, R84 row 1;
41_control_flow.md R124). -/

namespace Sys2Proof

/-- The low nibble of a SYS word selects no entry of table T0 (R75). -/
def sysOperandOk (nnn : Addr) : Bool :=
  let k := nnn.toNat % 16
  k != 0x0 && k != 0xE

/-- A term that some word decodes to. -/
def Instr.wf : Instr → Bool
  | .sys nnn => sysOperandOk nnn
  | .cls _ => true
  | .ret _ => true
  | .jp _ => true
  | .call _ => true
  | .seImm _ _ => true
  | .sneImm _ _ => true
  | .seReg _ _ _ => true
  | .ldImm _ _ => true
  | .addImm _ _ => true
  | .ldReg _ _ => true
  | .orReg _ _ => true
  | .andReg _ _ => true
  | .xorReg _ _ => true
  | .addReg _ _ => true
  | .subReg _ _ => true
  | .shr _ _ => true
  | .subnReg _ _ => true
  | .shl _ _ => true
  | .sneReg _ _ _ => true
  | .ldI _ => true
  | .jpV0 _ => true
  | .rnd _ _ => true
  | .drw _ _ _ => true
  | .skp _ _ => true
  | .sknp _ _ => true
  | .ldVxDt _ _ => true
  | .ldVxK _ _ => true
  | .ldDtVx _ => true
  | .ldStVx _ _ => true
  | .addI _ _ => true
  | .ldF _ _ => true
  | .ldB _ _ => true
  | .storeRegs _ => true
  | .loadRegs _ => true

/-- The well-formed instructions. -/
abbrev WellFormed (i : Instr) : Prop := i.wf = true

end Sys2Proof
end

