-- ==== Sys2Proof/Decode.lean ====
section
/-! DEFINITION. The decoder of 30_encoding.md R74 to R80, total on every word, and after it the encoder of R84. -/

namespace Sys2Proof

/-- The decode table in which a word found no entry (R75 to R79), or a byte string too short for a word. -/
inductive NoEntry where
  /-- T8 (R76): 8XYk with k in 8..D, F. -/
  | t8
  /-- TE (R77): EXYk with k neither E nor 1. -/
  | te
  /-- TF (R78): FXYk with k in 0, 1, 2, 4, 6, B, C, D, F. -/
  | tf
  /-- TF5 (R79): FXY5 with Y neither 1, 5 nor 6. -/
  | tf5
  /-- Fewer than two bytes were given to `decodeBytes`; no fetch does that (R54, R70). -/
  | truncated
  deriving DecidableEq, Repr

/-- The answer of the decoder: an instruction, or UNRECOGNIZED with the table that had no entry. The UNRECOGNIZED
entries of table T0 are the words of the row SYS NNN and are answered as `op (.sys nnn)` (R83, notes/assumptions/1.md). -/
inductive Decoded where
  | op (i : Instr)
  | unrecognized (t : NoEntry)
  deriving DecidableEq, Repr

/-! ### The fields of a word (R7, R71) -/

/-- n3 = w[15:12], the primary key. -/
def fieldN3 (w : Word) : Nibble := w.extractLsb' 12 4
/-- X = n2 = w[11:8]. -/
def fieldX (w : Word) : Nibble := w.extractLsb' 8 4
/-- Y = n1 = w[7:4], also the tertiary key. -/
def fieldY (w : Word) : Nibble := w.extractLsb' 4 4
/-- N = n0 = w[3:0], also the secondary key. -/
def fieldN (w : Word) : Nibble := w.extractLsb' 0 4
/-- NN = w[7:0]. -/
def fieldNN (w : Word) : Byte := w.extractLsb' 0 8
/-- NNN = w[11:0]. -/
def fieldNNN (w : Word) : Addr := w.extractLsb' 0 12
/-- w[11:4], the bits table T0 does not examine (R75). -/
def fieldT0Ign (w : Word) : Byte := w.extractLsb' 4 8

/-! ### The tables -/

/-- Secondary table T0, keyed by n0 (R75). -/
def decodeT0 (w : Word) : Decoded :=
  match (fieldN w).toNat with
  | 0x0 => .op (.cls (fieldT0Ign w))
  | 0xE => .op (.ret (fieldT0Ign w))
  | _ => .op (.sys (fieldNNN w))

/-- Secondary table T8, keyed by n0 (R76). -/
def decodeT8 (w : Word) : Decoded :=
  match (fieldN w).toNat with
  | 0x0 => .op (.ldReg (fieldX w) (fieldY w))
  | 0x1 => .op (.orReg (fieldX w) (fieldY w))
  | 0x2 => .op (.andReg (fieldX w) (fieldY w))
  | 0x3 => .op (.xorReg (fieldX w) (fieldY w))
  | 0x4 => .op (.addReg (fieldX w) (fieldY w))
  | 0x5 => .op (.subReg (fieldX w) (fieldY w))
  | 0x6 => .op (.shr (fieldX w) (fieldY w))
  | 0x7 => .op (.subnReg (fieldX w) (fieldY w))
  | 0xE => .op (.shl (fieldX w) (fieldY w))
  | _ => .unrecognized .t8

/-- Secondary table TE, keyed by n0 (R77). -/
def decodeTE (w : Word) : Decoded :=
  match (fieldN w).toNat with
  | 0xE => .op (.skp (fieldX w) (fieldY w))
  | 0x1 => .op (.sknp (fieldX w) (fieldY w))
  | _ => .unrecognized .te

/-- Tertiary table TF5, keyed by n1 (R79). -/
def decodeTF5 (w : Word) : Decoded :=
  match (fieldY w).toNat with
  | 0x1 => .op (.ldDtVx (fieldX w))
  | 0x5 => .op (.storeRegs (fieldX w))
  | 0x6 => .op (.loadRegs (fieldX w))
  | _ => .unrecognized .tf5

/-- Secondary table TF, keyed by n0 (R78). -/
def decodeTF (w : Word) : Decoded :=
  match (fieldN w).toNat with
  | 0x3 => .op (.ldB (fieldX w) (fieldY w))
  | 0x5 => decodeTF5 w
  | 0x7 => .op (.ldVxDt (fieldX w) (fieldY w))
  | 0x8 => .op (.ldStVx (fieldX w) (fieldY w))
  | 0x9 => .op (.ldF (fieldX w) (fieldY w))
  | 0xA => .op (.ldVxK (fieldX w) (fieldY w))
  | 0xE => .op (.addI (fieldX w) (fieldY w))
  | _ => .unrecognized .tf

/-- The primary table, keyed by n3 (R74, R80). The sixteenth entry, 0xF, is the last arm. -/
def decode (w : Word) : Decoded :=
  match (fieldN3 w).toNat with
  | 0x0 => decodeT0 w
  | 0x1 => .op (.jp (fieldNNN w))
  | 0x2 => .op (.call (fieldNNN w))
  | 0x3 => .op (.seImm (fieldX w) (fieldNN w))
  | 0x4 => .op (.sneImm (fieldX w) (fieldNN w))
  | 0x5 => .op (.seReg (fieldX w) (fieldY w) (fieldN w))
  | 0x6 => .op (.ldImm (fieldX w) (fieldNN w))
  | 0x7 => .op (.addImm (fieldX w) (fieldNN w))
  | 0x8 => decodeT8 w
  | 0x9 => .op (.sneReg (fieldX w) (fieldY w) (fieldN w))
  | 0xA => .op (.ldI (fieldNNN w))
  | 0xB => .op (.jpV0 (fieldNNN w))
  | 0xC => .op (.rnd (fieldX w) (fieldNN w))
  | 0xD => .op (.drw (fieldX w) (fieldY w) (fieldN w))
  | 0xE => decodeTE w
  | _ => decodeTF w

/-- The word of two bytes, the byte at the lower address high (20_memory.md R54, R55). -/
def wordOfBytes (hi lo : Byte) : Word := hi ++ lo

/-- The byte of a word that stands at the lower address (R54). -/
def highByte (w : Word) : Byte := w.extractLsb' 8 8

/-- The byte of a word that stands at the higher address (R54). -/
def lowByte (w : Word) : Byte := w.extractLsb' 0 8

/-- Decoding of the first two bytes of any byte string, with the bytes left over (R54, R70). -/
def decodeBytes : List Byte → Decoded × List Byte
  | hi :: lo :: rest => (decode (wordOfBytes hi lo), rest)
  | short => (.unrecognized .truncated, short)

/-- The host's numbering of a row's bits: one 16-bit word, bit 0 its least significant bit; laid out as the machine
stores it (high byte first) and read back by `decodeBytes`. Bits at and above `nbits` are 0. -/
def tableWord (nbits w : Nat) : Word := BitVec.ofNat 16 (w % 2 ^ nbits)

/-- The instruction the decoder reads from an instruction whose bits are `w` (none: the decoder refuses the word). -/
def decodeTableWord (nbits w : Nat) : Option Instr :=
  match (decodeBytes [highByte (tableWord nbits w), lowByte (tableWord nbits w)]).1 with
  | .op i => some i
  | .unrecognized _ => none

/-! ### The encoder -/

/-- The word of an instruction, from the patterns of R73 and R84. -/
def encode : Instr → Word
  | .sys nnn => 0x0#4 ++ nnn
  | .cls ign => 0x0#4 ++ ign ++ 0x0#4
  | .ret ign => 0x0#4 ++ ign ++ 0xE#4
  | .jp nnn => 0x1#4 ++ nnn
  | .call nnn => 0x2#4 ++ nnn
  | .seImm x nn => 0x3#4 ++ x ++ nn
  | .sneImm x nn => 0x4#4 ++ x ++ nn
  | .seReg x y ign => 0x5#4 ++ x ++ y ++ ign
  | .ldImm x nn => 0x6#4 ++ x ++ nn
  | .addImm x nn => 0x7#4 ++ x ++ nn
  | .ldReg x y => 0x8#4 ++ x ++ y ++ 0x0#4
  | .orReg x y => 0x8#4 ++ x ++ y ++ 0x1#4
  | .andReg x y => 0x8#4 ++ x ++ y ++ 0x2#4
  | .xorReg x y => 0x8#4 ++ x ++ y ++ 0x3#4
  | .addReg x y => 0x8#4 ++ x ++ y ++ 0x4#4
  | .subReg x y => 0x8#4 ++ x ++ y ++ 0x5#4
  | .shr x ign => 0x8#4 ++ x ++ ign ++ 0x6#4
  | .subnReg x y => 0x8#4 ++ x ++ y ++ 0x7#4
  | .shl x ign => 0x8#4 ++ x ++ ign ++ 0xE#4
  | .sneReg x y ign => 0x9#4 ++ x ++ y ++ ign
  | .ldI nnn => 0xA#4 ++ nnn
  | .jpV0 nnn => 0xB#4 ++ nnn
  | .rnd x nn => 0xC#4 ++ x ++ nn
  | .drw x y n => 0xD#4 ++ x ++ y ++ n
  | .skp x ign => 0xE#4 ++ x ++ ign ++ 0xE#4
  | .sknp x ign => 0xE#4 ++ x ++ ign ++ 0x1#4
  | .ldVxDt x ign => 0xF#4 ++ x ++ ign ++ 0x7#4
  | .ldVxK x ign => 0xF#4 ++ x ++ ign ++ 0xA#4
  | .ldDtVx x => 0xF#4 ++ x ++ 0x15#8
  | .ldStVx x ign => 0xF#4 ++ x ++ ign ++ 0x8#4
  | .addI x ign => 0xF#4 ++ x ++ ign ++ 0xE#4
  | .ldF x ign => 0xF#4 ++ x ++ ign ++ 0x9#4
  | .ldB x ign => 0xF#4 ++ x ++ ign ++ 0x3#4
  | .storeRegs x => 0xF#4 ++ x ++ 0x55#8
  | .loadRegs x => 0xF#4 ++ x ++ 0x65#8

end Sys2Proof
end

