-- ==== Sys2Proof/Config.lean ====
section
/-! DEFINITION. What is fixed for a machine and not changed by a run (10_state.md R39), and the model's one free value. -/

namespace Sys2Proof

/-- KEY_WAIT_MODE (00_scope.md R5, 46_keys_timers.md R182): whether LD VX, K goes on without a key or holds. -/
inductive KeyWaitMode where
  | scan
  | block
  deriving DecidableEq, Repr

/-- SPRITE_EDGE (00_scope.md R5, 45_display.md R172): whether a sprite pixel past the right or bottom edge is dropped
or wraps. -/
inductive SpriteEdge where
  | clip
  | wrap
  deriving DecidableEq, Repr

/-- The parameters a run reads. The third parameter, FONT, acts only at construction and is an argument of
`Machine.State.construct` (20_memory.md R64). -/
structure Params where
  keyWait : KeyWaitMode
  spriteEdge : SpriteEdge
  deriving DecidableEq, Repr

/-- The defaults of 00_scope.md R5. -/
def Params.default : Params := ⟨.scan, .clip⟩

/-- FREE VALUE: the random byte RND that the host gives with the n-th step (44_immediate_index_random.md R164: "any value
0..255", no distribution, no relation between the bytes of two steps). It has no body: nothing can be proved of a value
of it (notes/assumptions/4.md). -/
opaque Config.rndByte : Nat → Byte

end Sys2Proof
end

