-- ==== Sys2Proof/Machine/State.lean ====
section
/-! DEFINITION. The state of the CORE (spec/10_state.md), plain data, and its value after construction (R230, R231). -/

namespace Sys2Proof.Machine

/-- The cause of a diagnostic event (60_exceptions.md R202, R203; code 0 NONE is the absence of an event). -/
inductive DiagCode where
  /-- The word has no handler (30_encoding.md R86). -/
  | unrecognized
  /-- CALL with sp = 16 (R121). -/
  | stackOverflow
  /-- RET with sp = 0 (R122). -/
  | stackUnderflow
  /-- A data access through I would pass 0xFFF (20_memory.md R59). -/
  | memRange
  /-- SKP or SKNP with V[X] > 15 (R180, R181). -/
  | keyRange
  /-- Fetch with pc > 0xFFE (R206). -/
  | fetchRange
  deriving DecidableEq, Repr

/-- A diagnostic event (code, word, pc) (R202); the word is absent for FETCH_RANGE. -/
structure Diag where
  code : DiagCode
  word : Option Word
  pc : Word
  deriving DecidableEq, Repr

/-- The display buffer: 2048 one-bit cells, bit k the cell of flat index k = x + 64*y (10_state.md R32). -/
abbrev Display := BitVec 2048

structure State where
  /-- V0..VF; V[15] is VF (R20, R23). -/
  v : Vector Byte 16
  /-- The program counter (R26). -/
  pc : Word
  /-- The index register I (R28). -/
  i : Word
  /-- The call-stack slots (R29). -/
  stack : Vector Word 16
  /-- The number of occupied slots, 0..16 (R29, 90_conflicts.md C3). -/
  sp : Fin 17
  /-- The delay timer DT (R31). -/
  dt : Byte
  /-- The sound timer ST (R31). -/
  st : Byte
  /-- The memory, as the list of the bytes that differ from the construction contents, addresses rising
  (20_memory.md R50; the canonical form is `Memory.wf`). -/
  mem : List Host.Cell
  /-- The display buffer (R32). -/
  disp : Display
  /-- The dirty flag (R33). -/
  dirty : Bool
  /-- The key state, true = pressed (R34). -/
  keys : Vector Bool 16
  /-- The halt signal (R35, 60_exceptions.md R214). -/
  halted : Bool
  /-- The fault signal (R35, R206). -/
  fault : Bool
  /-- A ROM has been loaded (R35, 70_reset_and_hazards.md R232). -/
  loaded : Bool
  /-- MODEL'S FIELD: the beep output of the last step (R106, R211; log 3). -/
  beep : Bool
  /-- MODEL'S FIELD: the diagnostic output of the last step, `none` for NONE (R202; log 3). -/
  diag : Option Diag
  /-- MODEL'S FIELD: the parameters of the machine, which nothing writes (R39; log 5). -/
  params : Params
  /-- MODEL'S FIELD: the byte RND given with the coming step, `none` where it is left free (R164; log 4). -/
  rndIn : Option Byte
  /-- MODEL'S FIELD: performed steps so far, the argument of the free value `Config.rndByte` (log 4). -/
  draws : Nat
  deriving DecidableEq, Repr

/-- Why an operation of the host stops with an error. No step of the machine ends in a fault: a decode error and a fetch
fault are next states (R201, R206). -/
inductive Fault where
  /-- LoadError(TOO_LARGE), raised by LoadROM on more than 3584 bytes (R232). SAFE: the host keeps the state it had, with
  the memory unchanged and `loaded` still 0. -/
  | romTooLarge
  deriving DecidableEq, Repr

/-- Why a step or an operation of the host is refused. -/
inductive Refusal where
  /-- Raised by `exec` for an instruction that has no meaning yet. SAFE: nothing follows from it. No arm answers it. -/
  | notModelled (mnemonic : String)
  /-- Raised by `step` when no ROM is loaded: "A step invoked with `loaded = 0` has no effect and is refused"
  (40_execution_cycle.md R101). SAFE: it is the spec's own refusal. -/
  | notLoaded
  /-- Raised by LoadROM when a ROM is loaded already: "a second load is not defined" (R232). SAFE: it is the spec's own
  refusal. -/
  | alreadyLoaded
  deriving DecidableEq, Repr

/-- The state after construction (R230, R231): memory lists nothing, so it reads as the font and zeros; no ROM is loaded.
The values of the model's own fields are those of logs 3, 4 and 5. -/
def State.reset : State where
  v := Vector.replicate 16 0
  pc := 0x200
  i := 0
  stack := Vector.replicate 16 0
  sp := 0
  dt := 0
  st := 0
  mem := []
  disp := 0
  dirty := false
  keys := Vector.replicate 16 false
  halted := false
  fault := false
  loaded := false
  beep := false
  diag := none
  params := Params.default
  rndIn := none
  draws := 0

end Sys2Proof.Machine
end

