-- ==== Sys2Proof/Machine/Ops.lean ====
section
/-! DEFINITION. The shared operations: memory (20_memory.md), registers and the call stack (10_state.md), the end of a step
(40_execution_cycle.md R105, R107), and the two error outcomes, decode error and fetch fault (60_exceptions.md R201, R206).
The CORE has no exception entry and no return from one (R200, R208); those two operations stand in their place. -/

namespace Sys2Proof.Machine

/-! ### Memory -/

/-- The 80 font bytes, the default of the parameter FONT: glyph d at 5*d .. 5*d+4 (20_memory.md R64). -/
def standardFont : Vector Byte 80 := #v[
  0xF0, 0x90, 0x90, 0x90, 0xF0,
  0x20, 0x60, 0x20, 0x20, 0x70,
  0xF0, 0x10, 0xF0, 0x80, 0xF0,
  0xF0, 0x10, 0xF0, 0x10, 0xF0,
  0x90, 0x90, 0xF0, 0x10, 0x10,
  0xF0, 0x80, 0xF0, 0x10, 0xF0,
  0xF0, 0x80, 0xF0, 0x90, 0xF0,
  0xF0, 0x10, 0x20, 0x40, 0x40,
  0xF0, 0x90, 0xF0, 0x90, 0xF0,
  0xF0, 0x90, 0xF0, 0x10, 0xF0,
  0xF0, 0x90, 0xF0, 0x90, 0x90,
  0xE0, 0x90, 0xE0, 0x90, 0xE0,
  0xF0, 0x80, 0x80, 0x80, 0xF0,
  0xE0, 0x90, 0x90, 0x90, 0xE0,
  0xF0, 0x80, 0xF0, 0x80, 0xF0,
  0xF0, 0x80, 0xF0, 0x80, 0x80]

/-- What an address that memory does not list reads as: the construction contents, the font at 0x000..0x04F and 0x00
elsewhere (R231). -/
def initByte (a : Nat) : Byte := (standardFont[a]?).getD 0

/-- The byte at address `a` (R8 MemRead). Every reader checks its addresses first (R54, R59), so no instruction reads
outside 0x000..0xFFF (log 12). -/
def Memory.read : List Host.Cell → Nat → Byte
  | [], a => initByte a
  | (b, x) :: m, a => if a = b then x else Memory.read m a

/-- Put byte `x` at address `a`, keeping the canonical form (R8 MemWrite). -/
def Memory.write : List Host.Cell → Nat → Byte → List Host.Cell
  | [], a, x => if x = initByte a then [] else [(a, x)]
  | (b, y) :: m, a, x =>
    if a < b then (if x = initByte a then (b, y) :: m else (a, x) :: (b, y) :: m)
    else if a = b then (if x = initByte a then m else (a, x) :: m)
    else (b, y) :: Memory.write m a x

/-- The canonical form: addresses strictly rising and inside 0x000..0xFFF (R51), no entry equal to what an unlisted address
reads as. -/
abbrev Memory.wf (m : List Host.Cell) : Prop :=
  m.Pairwise (fun c d => c.1 < d.1) ∧ ∀ c ∈ m, c.1 ≤ 0xFFF ∧ c.2 ≠ initByte c.1

/-- Bytes written one after another at ascending addresses from `a` (R56, R61). -/
def Memory.writeBytes (m : List Host.Cell) (a : Nat) : List Byte → List Host.Cell
  | [] => m
  | x :: xs => Memory.writeBytes (Memory.write m a x) (a + 1) xs

/-- `n` bytes read at ascending addresses from `a` (R56, R61). -/
def Memory.readBytes (m : List Host.Cell) (a : Nat) : Nat → List Byte
  | 0 => []
  | n + 1 => Memory.read m a :: Memory.readBytes m (a + 1) n

/-- The byte at address `a`. -/
def State.readByte (s : State) (a : Nat) : Byte := Memory.read s.mem a

/-- Bytes stored one after another at ascending addresses from `a`. -/
def State.storeBytes (s : State) (a : Nat) (xs : List Byte) : State :=
  { s with mem := Memory.writeBytes s.mem a xs }

/-! ### Fetch -/

/-- Both bytes of an instruction at pc are inside memory (R54). -/
def State.fetchOk (s : State) : Bool := s.pc.toNat ≤ 0xFFE

/-- The word at pc, high byte first (R54). -/
def State.fetchWord (s : State) : Word := wordOfBytes (s.readByte s.pc.toNat) (s.readByte (s.pc.toNat + 1))

/-! ### General registers -/

/-- V[x] (10_state.md R20, R21). -/
def State.reg (s : State) (x : Nibble) : Byte := s.v[x.toNat]'x.isLt

/-- V[x] <- b. -/
def State.setReg (s : State) (x : Nibble) (b : Byte) : State := { s with v := s.v.set x.toNat b x.isLt }

/-- VF <- flag (R23). -/
def State.setFlag (s : State) (flag : Byte) : State := s.setReg VF flag

/-- VF <- flag, then V[x] <- b: with x = F the result is what stays (R25, 43_alu.md R140 (c)). -/
def State.setFlagReg (s : State) (x : Nibble) (flag b : Byte) : State := (s.setFlag flag).setReg x b

/-- The values of V0, V1, ..., V[n-1], in that order (47_memory_transfer.md R192). -/
def State.firstRegs (s : State) (n : Nat) : List Byte := s.v.toList.take n

/-- V[k] <- the first byte, V[k+1] <- the next, ... (R193). -/
def State.setRegs (s : State) (k : Nat) : List Byte → State
  | [] => s
  | b :: bs => (s.setReg (BitVec.ofNat 4 k) b).setRegs (k + 1) bs

/-- I <- v. -/
def State.setIndex (s : State) (v : Word) : State := { s with i := v }

/-! ### The call stack -/

/-- Slot k of the call stack; the callers keep k below 16 (R29). -/
def State.slot (s : State) (k : Nat) : Word := (s.stack[k]?).getD 0

/-- stack[sp] <- a; sp <- sp + 1, or nothing where all 16 slots are occupied (R29, R121). -/
def State.push (s : State) (a : Word) : Option State :=
  if h : s.sp.val < 16 then
    some { s with stack := s.stack.set s.sp.val a h, sp := ⟨s.sp.val + 1, by omega⟩ }
  else none

/-- sp <- sp - 1, with the value of the slot then at sp, or nothing where no slot is occupied; the slot keeps its value
(R29, R30, R122). -/
def State.pop (s : State) : Option (Word × State) :=
  if h : 0 < s.sp.val then
    some (s.slot (s.sp.val - 1), { s with sp := ⟨s.sp.val - 1, by have := s.sp.isLt; omega⟩ })
  else none

/-! ### The end of a step -/

/-- The PC outcome of a handler (40_execution_cycle.md R103, R104). -/
inductive Advance where
  | normal
  | skip
  | jump (t : Nat)
  | hold
  deriving DecidableEq, Repr

/-- Phase (5): the PC update, truncated to 16 bits (R105, 10_state.md R27). -/
def nextPc (pc : Word) : Advance → Word
  | .normal => BitVec.ofNat 16 (pc.toNat + 2)
  | .skip => BitVec.ofNat 16 (pc.toNat + 4)
  | .jump t => BitVec.ofNat 16 t
  | .hold => pc

/-- Skip when the condition holds, else Normal (R104, 42_conditional_skip.md). -/
def skipIf (c : Bool) : Advance := if c then .skip else .normal

/-- One tick of one countdown timer: never below 0 (60_exceptions.md R211). -/
def tick (t : Byte) : Byte := if 0 < t.toNat then BitVec.ofNat 8 (t.toNat - 1) else 0

/-- The beep fires when the pre-decrement value of ST is exactly 1 (R211, 90_conflicts.md C2). -/
def beeps (st : Byte) : Bool := st.toNat == 1

/-- Phases (4) and (5) of a performed step and its two outputs (R102, R106, R107), on the state that phase (3) left. The
step's random byte has been used up (log 4). -/
def endStep (adv : Advance) (d : Option Diag) (s : State) : State :=
  { s with
    dt := tick s.dt
    st := tick s.st
    beep := beeps s.st
    diag := d
    pc := nextPc s.pc adv
    rndIn := none
    draws := s.draws + 1 }

/-- A handler completes with its writes made and the given PC outcome, and no diagnostic (R103 (a)). -/
def complete (adv : Advance) (s : State) : Host.Outcome State Fault Refusal := .next (endStep adv none s)

/-- DECODE ERROR (R201, R103 (b)): the instruction word `w` writes nothing, pc advances by 2, the timers tick, and the
diagnostic is (code, w, pc). -/
def decodeError (code : DiagCode) (w : Word) (s : State) : Host.Outcome State Fault Refusal :=
  .next (endStep .normal (some ⟨code, some w, s.pc⟩) s)

/-- FETCH FAULT (R206): fault and halted are set and the diagnostic is (FETCH_RANGE, -, pc); no tick, no beep, no other
write. -/
def fetchFault (s : State) : Host.Outcome State Fault Refusal :=
  .next { s with fault := true, halted := true, beep := false, diag := some ⟨.fetchRange, none, s.pc⟩, rndIn := none }

/-- A step of a halted machine: no effect, no beep, no diagnostic (R101). -/
def stuck (s : State) : Host.Outcome State Fault Refusal :=
  .next { s with beep := false, diag := none, rndIn := none }

/-- The numeric code of a diagnostic event (R202; 0 is NONE). -/
def diagNumber : Option Diag → Nat
  | none => 0
  | some d =>
    match d.code with
    | .unrecognized => 1
    | .stackOverflow => 2
    | .stackUnderflow => 3
    | .memRange => 4
    | .keyRange => 5
    | .fetchRange => 6

/-! ### The step's random byte -/

/-- RND: the byte the host gave with this step, or the free value of this step (44_immediate_index_random.md R164). -/
def State.rndByte (s : State) : Byte := s.rndIn.getD (Config.rndByte s.draws)

end Sys2Proof.Machine
end

