-- ==== Sys2Proof/Machine/Alu.lean ====
section
/-! DEFINITION. Register arithmetic and logic (43_alu.md). Every source operand is read from the state before any write, VF
is written before V[X] (R140). -/

namespace Sys2Proof.Machine

/-- LD VX, VY (R141). -/
def execLdReg (x y : Nibble) (s : State) : Host.Outcome State Fault Refusal :=
  complete .normal (s.setReg x (s.reg y))

/-- OR VX, VY (R142). -/
def execOrReg (x y : Nibble) (s : State) : Host.Outcome State Fault Refusal :=
  complete .normal (s.setReg x (s.reg x ||| s.reg y))

/-- AND VX, VY (R143). -/
def execAndReg (x y : Nibble) (s : State) : Host.Outcome State Fault Refusal :=
  complete .normal (s.setReg x (s.reg x &&& s.reg y))

/-- XOR VX, VY (R144). -/
def execXorReg (x y : Nibble) (s : State) : Host.Outcome State Fault Refusal :=
  complete .normal (s.setReg x (s.reg x ^^^ s.reg y))

/-- ADD VX, VY (R145): VF is the carry. -/
def execAddReg (x y : Nibble) (s : State) : Host.Outcome State Fault Refusal :=
  complete .normal (s.setFlagReg x (carryFlag (s.reg x) (s.reg y)) (sum8 (s.reg x) (s.reg y)))

/-- SUB VX, VY (R146): VF is NOT borrow of VX - VY. -/
def execSubReg (x y : Nibble) (s : State) : Host.Outcome State Fault Refusal :=
  complete .normal (s.setFlagReg x (noBorrowFlag (s.reg x) (s.reg y)) (diff8 (s.reg x) (s.reg y)))

/-- SHR VX (R147): VF is the bit shifted out; VY is not used. -/
def execShr (x : Nibble) (s : State) : Host.Outcome State Fault Refusal :=
  complete .normal (s.setFlagReg x (shiftOutLowFlag (s.reg x)) (half8 (s.reg x)))

/-- SUBN VX, VY (R148): VF is NOT borrow of VY - VX. -/
def execSubnReg (x y : Nibble) (s : State) : Host.Outcome State Fault Refusal :=
  complete .normal (s.setFlagReg x (noBorrowFlag (s.reg y) (s.reg x)) (diff8 (s.reg y) (s.reg x)))

/-- SHL VX (R149): VF is the bit shifted out; VY is not used. -/
def execShl (x : Nibble) (s : State) : Host.Outcome State Fault Refusal :=
  complete .normal (s.setFlagReg x (shiftOutHighFlag (s.reg x)) (double8 (s.reg x)))

end Sys2Proof.Machine
end

