-- ==== Sys2Proof/Machine/Operands.lean ====
section
/-! DEFINITION. The operand forms that take more than reading V[X] or a literal: the data block at I with its range check
(20_memory.md R56, R59), a key named by a register (46_keys_timers.md R180), the scan of the keys (R182), a glyph address
(R190), decimal digits (R191), and a sprite's pixels (45_display.md R171, R172). -/

namespace Sys2Proof.Machine

/-! ### The data block at I -/

/-- The last of `n` ascending addresses from I is at most 0xFFF; with n = 0 there is no access and no check (R59). -/
def State.blockOk (s : State) (n : Nat) : Bool := n == 0 || s.i.toNat + n - 1 ≤ 0xFFF

/-- The `n` bytes at I, I+1, ... -/
def State.readBlock (s : State) (n : Nat) : List Byte := Memory.readBytes s.mem s.i.toNat n

/-- Store bytes at I, I+1, ... -/
def State.storeBlock (s : State) (xs : List Byte) : State := s.storeBytes s.i.toNat xs

/-- I <- I + n, in 16 bits (10_state.md R28). -/
def State.advanceIndex (s : State) (n : Nat) : State := s.setIndex (BitVec.ofNat 16 (s.i.toNat + n))

/-! ### Keys -/

/-- The state of key k; no key above 15 exists (10_state.md R34). -/
def State.keyPressed (s : State) (k : Nat) : Bool := (s.keys[k]?).getD false

/-- The key index in V[x], or nothing where the value is above 15 (R180, 60_exceptions.md R203 KEY_RANGE). -/
def State.keyOperand (s : State) (x : Nibble) : Option Nat :=
  if (s.reg x).toNat ≤ 15 then some (s.reg x).toNat else none

/-- The last pressed key an ascending scan finds: the highest pressed index (R182, 90_conflicts.md C4). -/
def State.scanKeys (s : State) : Option Nat :=
  (List.range 16).foldl (fun found k => if s.keyPressed k then some k else found) none

/-! ### Addresses and digits -/

/-- The address of glyph v, unmasked: v * 5 (R190). -/
def glyphAddress (v : Byte) : Word := BitVec.ofNat 16 (v.toNat * 5)

/-- Hundreds, tens and ones of a byte (R191). -/
def bcdDigits (v : Byte) : List Byte :=
  [BitVec.ofNat 8 (v.toNat / 100), BitVec.ofNat 8 (v.toNat / 10 % 10), BitVec.ofNat 8 (v.toNat % 10)]

/-! ### Sprites -/

/-- Cell (x, y) of a display; x below 64 and y below 32 (10_state.md R32). -/
def Display.cell (d : Display) (x y : Nat) : Bool := d.getLsbD (x + 64 * y)

/-- Cell (x, y) inverted. -/
def Display.flip (d : Display) (x y : Nat) : Display := d ^^^ BitVec.twoPow 2048 (x + 64 * y)

/-- The cell the sprite pixel at (xa, ya) lands on, or none (R172). -/
def spriteCell (e : SpriteEdge) (xa ya : Nat) : Option (Nat × Nat) :=
  match e with
  | .clip => if xa ≤ 63 ∧ ya ≤ 31 then some (xa, ya) else none
  | .wrap => some (xa % 64, ya % 32)

/-- What the drawing loop carries: the display so far, and whether a cell has gone from 1 to 0 (R171). -/
structure Drawing where
  disp : Display
  collision : Bool
  deriving DecidableEq, Repr

/-- A set sprite pixel at (xa, ya): the cell it lands on is inverted, and a cell that was 1 is a collision (R171, R173). -/
def plot (e : SpriteEdge) (xa ya : Nat) (g : Drawing) : Drawing :=
  match spriteCell e xa ya with
  | none => g
  | some (x, y) => ⟨Display.flip g.disp x y, g.collision || Display.cell g.disp x y⟩

/-- Row bit of column c: bit 7 is column 0 (R171). -/
def spriteBit (row : Byte) (c : Nat) : Bool := row.getLsbD (7 - c)

/-- The first `n` columns of one sprite row at (x0, y), column 0 first. -/
def drawCols (e : SpriteEdge) (x0 y : Nat) (row : Byte) : Nat → Drawing → Drawing
  | 0, g => g
  | n + 1, g =>
    let g := drawCols e x0 y row n g
    if spriteBit row n then plot e (x0 + n) y g else g

/-- The rows of a sprite from row y down (R171). -/
def drawRows (e : SpriteEdge) (x0 y : Nat) : List Byte → Drawing → Drawing
  | [], g => g
  | row :: rows, g => drawRows e x0 (y + 1) rows (drawCols e x0 y row 8 g)

end Sys2Proof.Machine
end

