-- ==== Sys2Proof/Machine/Control.lean ====
section
/-! DEFINITION. Control transfer: SYS, JP, CALL, RET, JP V0 (41_control_flow.md). -/

namespace Sys2Proof.Machine

/-- SYS NNN (R124): UNRECOGNIZED, a reported no-op. -/
def execSys (nnn : Addr) (s : State) : Host.Outcome State Fault Refusal :=
  decodeError .unrecognized (encode (.sys nnn)) s

/-- RET (R122): pop, then resume past the CALL whose address was popped (90_conflicts.md C1). -/
def execRet (ign : Byte) (s : State) : Host.Outcome State Fault Refusal :=
  match s.pop with
  | none => decodeError .stackUnderflow (encode (.ret ign)) s
  | some (a, s') => complete (.jump (a.toNat + 2)) s'

/-- JP NNN (R120). -/
def execJp (nnn : Addr) (s : State) : Host.Outcome State Fault Refusal :=
  complete (.jump nnn.toNat) s

/-- CALL NNN (R121): the pushed value is the address of the CALL itself. -/
def execCall (nnn : Addr) (s : State) : Host.Outcome State Fault Refusal :=
  match s.push s.pc with
  | none => decodeError .stackOverflow (encode (.call nnn)) s
  | some s' => complete (.jump nnn.toNat) s'

/-- JP V0, NNN (R123): always V0, no masking. -/
def execJpV0 (nnn : Addr) (s : State) : Host.Outcome State Fault Refusal :=
  complete (.jump (nnn.toNat + (s.reg 0).toNat)) s

end Sys2Proof.Machine
end

