-- ==== Sys2Proof/Machine/Graphics.lean ====
section
/-! DEFINITION. Display instructions: CLS, DRW (45_display.md). -/

namespace Sys2Proof.Machine

/-- CLS (R170): every cell 0, dirty set. -/
def execCls (s : State) : Host.Outcome State Fault Refusal :=
  complete .normal { s with disp := 0, dirty := true }

/-- DRW VX, VY, N (R171 to R173): the range check, then the sprite at I drawn at (VX, VY); VF is the collision, written
once after all pixels; dirty set. -/
def execDrw (x y n : Nibble) (s : State) : Host.Outcome State Fault Refusal :=
  if s.blockOk n.toNat then
    let g := drawRows s.params.spriteEdge (s.reg x).toNat (s.reg y).toNat (s.readBlock n.toNat) ⟨s.disp, false⟩
    complete .normal { s.setFlag (flagOf g.collision) with disp := g.disp, dirty := true }
  else decodeError .memRange (encode (.drw x y n)) s

end Sys2Proof.Machine
end

