-- ==== Sys2Proof/Machine/Immediate.lean ====
section
/-! DEFINITION. Immediate, index and random instructions (44_immediate_index_random.md). -/

namespace Sys2Proof.Machine

/-- LD VX, NN (R160). -/
def execLdImm (x : Nibble) (nn : Byte) (s : State) : Host.Outcome State Fault Refusal :=
  complete .normal (s.setReg x nn)

/-- ADD VX, NN (R161): no flag. -/
def execAddImm (x : Nibble) (nn : Byte) (s : State) : Host.Outcome State Fault Refusal :=
  complete .normal (s.setReg x (sum8 (s.reg x) nn))

/-- LD I, NNN (R162). -/
def execLdI (nnn : Addr) (s : State) : Host.Outcome State Fault Refusal :=
  complete .normal (s.setIndex (nnn.setWidth 16))

/-- ADD I, VX (R163): VF iff the exact sum exceeds 0xFFF, I keeps 16 bits. -/
def execAddI (x : Nibble) (s : State) : Host.Outcome State Fault Refusal :=
  complete .normal ((s.setFlag (indexOverflowFlag s.i (s.reg x))).advanceIndex (s.reg x).toNat)

/-- RND VX, NN (R164): the step's random byte, a free value, masked. -/
def execRnd (x : Nibble) (nn : Byte) (s : State) : Host.Outcome State Fault Refusal :=
  complete .normal (s.setReg x (s.rndByte &&& nn))

end Sys2Proof.Machine
end

