-- ==== Sys2Proof/Machine/KeysTimers.lean ====
section
/-! DEFINITION. Key wait and timer instructions (46_keys_timers.md R182 to R185). The timers are read and written before the
tick of the same step (40_execution_cycle.md R108). -/

namespace Sys2Proof.Machine

/-- LD VX, K (R182): the highest pressed key; with no key pressed it goes on (Scan) or holds pc (Block). -/
def execLdVxK (x : Nibble) (s : State) : Host.Outcome State Fault Refusal :=
  match s.scanKeys with
  | some k => complete .normal (s.setReg x (BitVec.ofNat 8 k))
  | none =>
    match s.params.keyWait with
    | .scan => complete .normal s
    | .block => complete .hold s

/-- LD VX, DT (R183). -/
def execLdVxDt (x : Nibble) (s : State) : Host.Outcome State Fault Refusal :=
  complete .normal (s.setReg x s.dt)

/-- LD DT, VX (R184). -/
def execLdDtVx (x : Nibble) (s : State) : Host.Outcome State Fault Refusal :=
  complete .normal { s with dt := s.reg x }

/-- LD ST, VX (R185). -/
def execLdStVx (x : Nibble) (s : State) : Host.Outcome State Fault Refusal :=
  complete .normal { s with st := s.reg x }

end Sys2Proof.Machine
end

