-- ==== Sys2Proof/Machine/Skip.lean ====
section
/-! DEFINITION. Conditional skips: SE, SNE (42_conditional_skip.md), SKP, SKNP (46_keys_timers.md R180, R181). -/

namespace Sys2Proof.Machine

/-- SE VX, NN (R130). -/
def execSeImm (x : Nibble) (nn : Byte) (s : State) : Host.Outcome State Fault Refusal :=
  complete (skipIf (s.reg x == nn)) s

/-- SNE VX, NN (R131). -/
def execSneImm (x : Nibble) (nn : Byte) (s : State) : Host.Outcome State Fault Refusal :=
  complete (skipIf (s.reg x != nn)) s

/-- SE VX, VY (R132). -/
def execSeReg (x y : Nibble) (s : State) : Host.Outcome State Fault Refusal :=
  complete (skipIf (s.reg x == s.reg y)) s

/-- SNE VX, VY (R133). -/
def execSneReg (x y : Nibble) (s : State) : Host.Outcome State Fault Refusal :=
  complete (skipIf (s.reg x != s.reg y)) s

/-- SKP VX (R180). -/
def execSkp (x ign : Nibble) (s : State) : Host.Outcome State Fault Refusal :=
  match s.keyOperand x with
  | none => decodeError .keyRange (encode (.skp x ign)) s
  | some k => complete (skipIf (s.keyPressed k)) s

/-- SKNP VX (R181). -/
def execSknp (x ign : Nibble) (s : State) : Host.Outcome State Fault Refusal :=
  match s.keyOperand x with
  | none => decodeError .keyRange (encode (.sknp x ign)) s
  | some k => complete (skipIf (!s.keyPressed k)) s

end Sys2Proof.Machine
end

