-- ==== Sys2Proof/Machine/Transfer.lean ====
section
/-! DEFINITION. Font address, decimal digits and register transfer (47_memory_transfer.md). The range check is made before
any access (20_memory.md R59). -/

namespace Sys2Proof.Machine

/-- LD F, VX (R190). -/
def execLdF (x : Nibble) (s : State) : Host.Outcome State Fault Refusal :=
  complete .normal (s.setIndex (glyphAddress (s.reg x)))

/-- LD B, VX (R191): three digits at I, I+1, I+2; I stays. -/
def execLdB (x ign : Nibble) (s : State) : Host.Outcome State Fault Refusal :=
  if s.blockOk 3 then complete .normal (s.storeBlock (bcdDigits (s.reg x)))
  else decodeError .memRange (encode (.ldB x ign)) s

/-- LD [I], VX (R192): V0..VX to I, I+1, ...; then I advances by X + 1. -/
def execStoreRegs (x : Nibble) (s : State) : Host.Outcome State Fault Refusal :=
  if s.blockOk (x.toNat + 1) then
    complete .normal ((s.storeBlock (s.firstRegs (x.toNat + 1))).advanceIndex (x.toNat + 1))
  else decodeError .memRange (encode (.storeRegs x)) s

/-- LD VX, [I] (R193): V0..VX from I, I+1, ...; then I advances by X + 1. -/
def execLoadRegs (x : Nibble) (s : State) : Host.Outcome State Fault Refusal :=
  if s.blockOk (x.toNat + 1) then
    complete .normal ((s.setRegs 0 (s.readBlock (x.toNat + 1))).advanceIndex (x.toNat + 1))
  else decodeError .memRange (encode (.loadRegs x)) s

end Sys2Proof.Machine
end

