-- ==== Sys2Proof/Machine/Step.lean ====
section
/-! DEFINITION. The step (40_execution_cycle.md R107). -/

namespace Sys2Proof.Machine

/-- One Step of the host (R101, R102, R107): refused without a ROM, without effect when halted, a fetch fault past 0xFFE,
else fetch, decode and execute; an UNRECOGNIZED word is a decode error (30_encoding.md R81). -/
def step (s : State) : Host.Outcome State Fault Refusal :=
  if s.loaded then
    if s.halted then stuck s
    else if s.fetchOk then
      match decode s.fetchWord with
      | .op i => exec i s
      | .unrecognized _ => decodeError .unrecognized s.fetchWord s
    else fetchFault s
  else .refused .notLoaded

/-- The state with an instruction stored where `step` fetches next, the machine loaded and not halted, so that the next
step runs it; a pc that cannot fetch is put at the entry point 0x200. It stands for LoadROM (R232, R234; log 10). -/
def State.withFetchWord (s : State) (nbits w : Nat) : State :=
  let pc : Word := if s.fetchOk then s.pc else 0x200
  { s with
    pc := pc
    mem := Memory.writeBytes s.mem pc.toNat [highByte (tableWord nbits w), lowByte (tableWord nbits w)]
    loaded := true
    halted := false }

end Sys2Proof.Machine
end

