-- ==== Sys2Proof/Machine/HostOps.lean ====
section
/-! DEFINITION. The host's operations on the CORE (60_exceptions.md R213): construction (70_reset_and_hazards.md R230, R231),
LoadROM (R232), SetKeys, Step, ReadDisplay, ConsumeDisplay, ReadHalt. Each is atomic and none overlaps a step. -/

namespace Sys2Proof.Machine

/-- Construction with given FONT and parameters (R230, R231, 20_memory.md R64). `State.reset` is this with the
defaults of 00_scope.md R5. -/
def State.construct (font : Vector Byte 80) (p : Params) : State :=
  { State.reset with mem := Memory.writeBytes [] 0 font.toList, params := p }

/-- The most bytes a ROM may have: 4096 - 512 (R5 MAX_ROM_BYTES). -/
def maxRomBytes : Nat := 3584

/-- LoadROM (R232): refused a second time, an error when too large (nothing is written), else the bytes at 0x200 and up
and `loaded` set. -/
def loadRom (rom : List Byte) (s : State) : Host.Outcome State Fault Refusal :=
  if s.loaded then .refused .alreadyLoaded
  else if maxRomBytes < rom.length then .fault .romTooLarge
  else .next { s.storeBytes 0x200 rom with loaded := true }

/-- SetKeys (R213): the whole key state is replaced. -/
def setKeys (k : Vector Bool 16) (s : State) : State := { s with keys := k }

/-- Step(RND) with the byte the host gives (R107, R213). -/
def stepWith (rnd : Byte) (s : State) : Host.Outcome State Fault Refusal := step { s with rndIn := some rnd }

/-- ReadDisplay: the 2048 cells and dirty (R213). -/
def readDisplay (s : State) : Display × Bool := (s.disp, s.dirty)

/-- ConsumeDisplay: dirty <- 0 (R213, 10_state.md R33). -/
def consumeDisplay (s : State) : State := { s with dirty := false }

/-- ReadHalt: halted and fault (R213). -/
def readHalt (s : State) : Bool × Bool := (s.halted, s.fault)

/-- The operations the host may invoke (R213). -/
inductive HostOp where
  | loadRom (rom : List Byte)
  | setKeys (k : Vector Bool 16)
  | step (rnd : Byte)
  | readDisplay
  | consumeDisplay
  | readHalt
  deriving DecidableEq, Repr

/-- One operation of the host. The two reads change nothing; what they return is `readDisplay` and `readHalt`. -/
def hostStep (o : HostOp) (s : State) : Host.Outcome State Fault Refusal :=
  match o with
  | .loadRom rom => Sys2Proof.Machine.loadRom rom s
  | .setKeys k => .next (Sys2Proof.Machine.setKeys k s)
  | .step rnd => stepWith rnd s
  | .readDisplay => .next s
  | .consumeDisplay => .next (Sys2Proof.Machine.consumeDisplay s)
  | .readHalt => .next s

/-- A sequence of operations of the host. An operation that ends in an error or a refusal leaves the state as it was and
the host goes on with the next one (R232, R101). -/
def hostRun : List HostOp → State → State
  | [], s => s
  | o :: os, s =>
    match hostStep o s with
    | .next t => hostRun os t
    | .fault _ => hostRun os s
    | .refused _ => hostRun os s

end Sys2Proof.Machine
end

