-- ==== Sys2Proof/Safety.lean ====
section
/-! DEFINITION. The terms the claims use: which parts of the state an instruction may touch, what a reported no-op is, the
causes of decode errors, and the invariant of every reachable state. Nothing here is called by the machine. -/

namespace Sys2Proof.Machine

/-! ### Unchanged parts of the state -/

/-- Every general register but those listed holds what it held. -/
def SameRegsBut (ks : List Nibble) (s t : State) : Prop := ∀ k, k ∉ ks → t.reg k = s.reg k

/-- Every byte of memory reads as it did. -/
def SameMem (s t : State) : Prop := ∀ a, t.readByte a = s.readByte a

/-- Every byte of memory outside the `n` bytes from `a` reads as it did. -/
def SameMemOutside (a n : Nat) (s t : State) : Prop := ∀ b, ¬(a ≤ b ∧ b < a + n) → t.readByte b = s.readByte b

/-- The call stack and its pointer are as they were. -/
def SameStack (s t : State) : Prop := t.stack = s.stack ∧ t.sp = s.sp

/-- The display buffer and the dirty flag are as they were. -/
def SameDisplay (s t : State) : Prop := t.disp = s.disp ∧ t.dirty = s.dirty

/-- What only the host or a fetch fault writes is as it was: the keys, the three signals, the parameters. -/
def SameHostSide (s t : State) : Prop :=
  t.keys = s.keys ∧ t.halted = s.halted ∧ t.fault = s.fault ∧ t.loaded = s.loaded ∧ t.params = s.params

/-- Nothing is written but possibly the listed registers. -/
def OnlyRegs (ks : List Nibble) (s t : State) : Prop :=
  SameRegsBut ks s t ∧ t.i = s.i ∧ SameMem s t ∧ SameStack s t ∧ SameDisplay s t ∧ SameHostSide s t

/-! ### The end of a step -/

/-- One timer after a tick that found it at `old`: one less, and never below 0 (60_exceptions.md R211). -/
def TickedFrom (old new : Byte) : Prop := new.toNat = old.toNat - 1

/-- Both timers have ticked from the values `s` holds, and the beep tells whether ST was exactly 1 (R211). -/
def Ticked (s t : State) : Prop :=
  TickedFrom s.dt t.dt ∧ TickedFrom s.st t.st ∧ (t.beep = true ↔ s.st.toNat = 1)

/-- pc has moved on by `n`, modulo 2^16 (40_execution_cycle.md R105, 10_state.md R27). -/
def PcPlus (n : Nat) (s t : State) : Prop := t.pc.toNat = (s.pc.toNat + n) % 0x10000

/-- The step ends with pc moved on by `n`, the timers ticked from `s`, and no diagnostic. -/
def EndsNormally (n : Nat) (s t : State) : Prop := PcPlus n s t ∧ Ticked s t ∧ t.diag = none

/-- A decode error (R201): nothing is written, pc moves on by 2, the timers tick, and the diagnostic is (code, w, pc). -/
def ReportedNoOp (code : DiagCode) (w : Word) (s t : State) : Prop :=
  OnlyRegs [] s t ∧ PcPlus 2 s t ∧ Ticked s t ∧ t.diag = some ⟨code, some w, s.pc⟩

/-! ### Words and causes -/

/-- The reserved words, as R86 lists them by their fields: `n3`, `y` and `k` are w[15:12], w[7:4] and w[3:0]. -/
def reservedWord (w : Word) : Bool :=
  let n3 := w.toNat / 0x1000
  let y := w.toNat / 0x10 % 0x10
  let k := w.toNat % 0x10
  n3 == 0x0 && !([0x0, 0xE].contains k) ||
  n3 == 0x8 && [0x8, 0x9, 0xA, 0xB, 0xC, 0xD, 0xF].contains k ||
  n3 == 0xE && !([0x1, 0xE].contains k) ||
  n3 == 0xF && [0x0, 0x1, 0x2, 0x4, 0x6, 0xB, 0xC, 0xD, 0xF].contains k ||
  n3 == 0xF && k == 0x5 && !([0x1, 0x5, 0x6].contains y)

/-- The decoder's answer is UNRECOGNIZED: no entry in a table, or the row SYS (R80, R83). -/
def unrecognizedBy (d : Decoded) : Bool :=
  match d with
  | .unrecognized _ => true
  | .op (.sys _) => true
  | .op _ => false

/-- The cause of a decode error of an instruction in a state, as the table of R203 gives it. -/
def errorCause (i : Instr) (s : State) : Option DiagCode :=
  match i with
  | .sys _ => some .unrecognized
  | .call _ => if s.sp.val = 16 then some .stackOverflow else none
  | .ret _ => if s.sp.val = 0 then some .stackUnderflow else none
  | .drw _ _ n => if 0 < n.toNat ∧ s.i.toNat + n.toNat - 1 > 0xFFF then some .memRange else none
  | .ldB _ _ => if s.i.toNat + 2 > 0xFFF then some .memRange else none
  | .storeRegs x => if s.i.toNat + x.toNat > 0xFFF then some .memRange else none
  | .loadRegs x => if s.i.toNat + x.toNat > 0xFFF then some .memRange else none
  | .skp x _ => if (s.reg x).toNat > 15 then some .keyRange else none
  | .sknp x _ => if (s.reg x).toNat > 15 then some .keyRange else none
  | _ => none

/-- The cause of a decode error of a word in a state (R203): UNRECOGNIZED where the decoder has no entry. -/
def wordCause (w : Word) (s : State) : Option DiagCode :=
  match decode w with
  | .op i => errorCause i s
  | .unrecognized _ => some .unrecognized

/-- The canonical term of an instruction: its ignored bits as R84 prints them. SHR and SHL print their unused Y field. -/
def canonical (i : Instr) : Instr :=
  match i with
  | .cls _ => .cls 0x0E
  | .ret _ => .ret 0x0E
  | .seReg x y _ => .seReg x y 0
  | .sneReg x y _ => .sneReg x y 0
  | .shr x _ => .shr x 0
  | .shl x _ => .shl x 0
  | .skp x _ => .skp x 0x9
  | .sknp x _ => .sknp x 0xA
  | .ldVxDt x _ => .ldVxDt x 0
  | .ldVxK x _ => .ldVxK x 0
  | .ldStVx x _ => .ldStVx x 1
  | .addI x _ => .addI x 1
  | .ldF x _ => .ldF x 2
  | .ldB x _ => .ldB x 3
  | i => i

/-! ### Which instruction may write what (10_state.md R20 to R34) -/

/-- The registers an instruction may write: X as a destination, VF as a flag (R24), V0..VX (R22). -/
def mayWriteReg (i : Instr) (k : Nibble) : Bool :=
  match i with
  | .ldImm x _ | .addImm x _ | .rnd x _ | .ldVxDt x _ | .ldVxK x _ => k == x
  | .ldReg x _ | .orReg x _ | .andReg x _ | .xorReg x _ => k == x
  | .addReg x _ | .subReg x _ | .subnReg x _ | .shr x _ | .shl x _ => k == x || k == VF
  | .addI _ _ | .drw _ _ _ => k == VF
  | .loadRegs x => k.toNat ≤ x.toNat
  | _ => false

/-- The addresses an instruction may store to: three bytes at I for LD B, X + 1 bytes at I for LD [I], VX
(20_memory.md R58). -/
def mayStoreAt (i : Instr) (s : State) (a : Nat) : Bool :=
  match i with
  | .ldB _ _ => s.i.toNat ≤ a && a ≤ s.i.toNat + 2
  | .storeRegs x => s.i.toNat ≤ a && a ≤ s.i.toNat + x.toNat
  | _ => false

/-- The byte that an instruction leaves at an address: the digit of V[X] or the register it stores there, and what was there
where it stores nothing, a decode error included (47_memory_transfer.md R191, R192, 60_exceptions.md R201). -/
def byteAfter (i : Instr) (s : State) (a : Nat) : Byte :=
  if errorCause i s = none ∧ mayStoreAt i s a = true then
    match i with
    | .ldB x _ => BitVec.ofNat 8 ((s.reg x).toNat / 10 ^ (s.i.toNat + 2 - a) % 10)
    | .storeRegs _ => s.reg (BitVec.ofNat 4 (a - s.i.toNat))
    | _ => s.readByte a
  else s.readByte a

/-- The instructions that write I (R28). -/
def mayWriteIndex (i : Instr) : Bool :=
  match i with
  | .ldI _ | .addI _ _ | .ldF _ _ | .storeRegs _ | .loadRegs _ => true
  | _ => false

/-- The instructions that reach the call stack (R29). -/
def mayReachStack (i : Instr) : Bool :=
  match i with
  | .call _ | .ret _ => true
  | _ => false

/-- The instructions that write the display or the dirty flag (R32, R33). -/
def mayWriteDisplay (i : Instr) : Bool :=
  match i with
  | .cls _ | .drw _ _ _ => true
  | _ => false

/-- The instructions whose PC outcome may be Jump (40_execution_cycle.md R104). -/
def mayJump (i : Instr) : Bool :=
  match i with
  | .jp _ | .jpV0 _ | .call _ | .ret _ => true
  | _ => false

/-- The instructions whose PC outcome may be Skip (R104). -/
def maySkip (i : Instr) : Bool :=
  match i with
  | .seImm _ _ | .sneImm _ _ | .seReg _ _ _ | .sneReg _ _ _ | .skp _ _ | .sknp _ _ => true
  | _ => false

/-- The instruction whose PC outcome may be Hold (R104). -/
def mayHold (i : Instr) : Bool :=
  match i with
  | .ldVxK _ _ => true
  | _ => false

/-- The value the tick of this step finds in DT: what LD DT, VX has just written, else what was there (R108). -/
def dtBeforeTick (d : Decoded) (s : State) : Byte :=
  match d with
  | .op (.ldDtVx x) => s.reg x
  | _ => s.dt

/-- The value the tick of this step finds in ST (R108). -/
def stBeforeTick (d : Decoded) (s : State) : Byte :=
  match d with
  | .op (.ldStVx x _) => s.reg x
  | _ => s.st

/-! ### Sprites -/

/-- A sprite pixel at (xa, ya) lands on cell (x, y) of the display (45_display.md R172). -/
def lands (e : SpriteEdge) (xa ya x y : Nat) : Bool :=
  match e with
  | .clip => xa == x && ya == y && x ≤ 63 && y ≤ 31
  | .wrap => xa % 64 == x && ya % 32 == y

/-- Some set pixel of the N-row sprite at I, drawn at (x0, y0), lands on cell (x, y): row r is the byte at I + r, and
column c is its bit 7 - c (R171). -/
def SpriteHits (s : State) (x0 y0 n x y : Nat) : Prop :=
  ∃ r c, r < n ∧ c < 8 ∧ (s.readByte (s.i.toNat + r)).getLsbD (7 - c) = true ∧
    lands s.params.spriteEdge (x0 + c) (y0 + r) x y = true

/-! ### The invariant -/

/-- What holds in every state a host and a program can reach: memory is canonical; halted and fault go together, only a
loaded machine halts, and it halts with a pc it cannot fetch from; the pc and every saved pc stay far below 2^16, so the
truncation of R105 never acts. -/
structure Inv (s : State) : Prop where
  memCanonical : Memory.wf s.mem
  haltedIffFault : s.halted = s.fault
  haltedLoaded : s.halted = true → s.loaded = true
  haltedPc : s.halted = true → 0xFFE < s.pc.toNat
  pcBound : s.pc.toNat ≤ 0x10FE
  savedPcBound : ∀ k, k < s.sp.val → (s.slot k).toNat ≤ 0xFFE

end Sys2Proof.Machine
end

