-- ==== Sys2Proof/Certificates/Slice0/Obligations.lean ====
section
/-! DEFINITION. The statements for the provers, one `def Obligations.<Name> : Prop` each; OBLIGATIONS.json lists them. A
statement about an instruction has a decode clause (the word its rule gives it, for every operand), the next state that
`exec` answers, and the frame. `exec` performs phases (3) to (5) of a step (log 11), so timers and pc are in it.

Where the spec marks a point as its own decision (`Dn`, 92_eei_decisions.md), as derived or as general knowledge, the
docstring of the statement that rests on it names the mark; the model follows those points (log 14). Every statement that
says where pc goes computes modulo 2^16 (10_state.md R27, D9): in a state with `Inv` no sum reaches 2^16. -/

open Sys2Proof Sys2Proof.Machine

/-! ### Decoding -/

/-- Decoder and encoder agree in both directions, for every instruction and every word. A term holds the ignored bits of its
word (log 2), or the second direction would fail. -/
def Obligations.DecodeAndEncodeAgree : Prop :=
  (∀ i : Instr, WellFormed i → decode (encode i) = .op i) ∧
  (∀ (w : Word) (i : Instr), decode w = .op i → WellFormed i ∧ encode i = w)

/-- A word of each family of files 41 to 47, one at least of each format of R73, written out from 30_encoding.md R84 and read
by the decoder (sanity). The last clause is the model's choice (log 1): the spec answers UNRECOGNIZED for that word and the
model answers the term `sys`, which runs as one. -/
def Obligations.SampleWordsDecode : Prop :=
  decode 0x13AB = .op (.jp 0x3AB) ∧ decode 0x00EE = .op (.ret 0x0E) ∧
  decode 0x3342 = .op (.seImm 3 0x42) ∧ decode 0x4300 = .op (.sneImm 3 0x00) ∧
  decode 0x5120 = .op (.seReg 1 2 0) ∧ decode 0x9120 = .op (.sneReg 1 2 0) ∧
  decode 0x8014 = .op (.addReg 0 1) ∧
  decode 0x6A2F = .op (.ldImm 0xA 0x2F) ∧ decode 0x7303 = .op (.addImm 3 3) ∧ decode 0xA300 = .op (.ldI 0x300) ∧
  decode 0xC30F = .op (.rnd 3 0x0F) ∧ decode 0xF11E = .op (.addI 1 1) ∧
  decode 0xD015 = .op (.drw 0 1 5) ∧ decode 0xE5A1 = .op (.sknp 5 0xA) ∧ decode 0xF115 = .op (.ldDtVx 1) ∧
  decode 0xF355 = .op (.storeRegs 3) ∧ decode 0xF125 = .unrecognized .tf5 ∧ decode 0x0123 = .op (.sys 0x123)

/-- 30_encoding.md R86 (derived there) and R81: the UNRECOGNIZED words are exactly those of tables T0, T8, TE, TF and TF5
that have no entry, listed as R86 lists them, and a step on one of them is a reported no-op. The words of T0 are the terms
`sys` of the model and are counted with them (log 1). -/
def Obligations.ReservedWordsAreReportedNoOps : Prop :=
  (∀ w : Word, unrecognizedBy (decode w) = reservedWord w) ∧
  (∀ s : State, s.loaded = true → s.halted = false → s.pc.toNat ≤ 0xFFE → reservedWord s.fetchWord = true →
    ∃ t, step s = .next t ∧ ReportedNoOp .unrecognized s.fetchWord s t)

/-- 30_encoding.md section 5 (R85, derived there): every word of the alias table decodes to the instruction named there,
whatever its ignored bits, and runs exactly as the canonical word with the same operands, but for the word a diagnostic
shows. -/
def Obligations.IgnoredBitsAreIgnored : Prop :=
  (∀ (x y n : Nibble) (z : Byte),
    decode (0x0#4 ++ z ++ 0x0#4) = .op (.cls z) ∧ decode (0x0#4 ++ z ++ 0xE#4) = .op (.ret z) ∧
    decode (0x5#4 ++ x ++ y ++ n) = .op (.seReg x y n) ∧ decode (0x9#4 ++ x ++ y ++ n) = .op (.sneReg x y n) ∧
    decode (0xE#4 ++ x ++ y ++ 0xE#4) = .op (.skp x y) ∧ decode (0xE#4 ++ x ++ y ++ 0x1#4) = .op (.sknp x y) ∧
    decode (0xF#4 ++ x ++ y ++ 0x7#4) = .op (.ldVxDt x y) ∧ decode (0xF#4 ++ x ++ y ++ 0xA#4) = .op (.ldVxK x y) ∧
    decode (0xF#4 ++ x ++ y ++ 0x8#4) = .op (.ldStVx x y) ∧ decode (0xF#4 ++ x ++ y ++ 0xE#4) = .op (.addI x y) ∧
    decode (0xF#4 ++ x ++ y ++ 0x9#4) = .op (.ldF x y) ∧ decode (0xF#4 ++ x ++ y ++ 0x3#4) = .op (.ldB x y) ∧
    decode (0x8#4 ++ x ++ y ++ 0x6#4) = .op (.shr x y) ∧ decode (0x8#4 ++ x ++ y ++ 0xE#4) = .op (.shl x y)) ∧
  (∀ (i : Instr) (s : State), ∃ t u, exec i s = .next t ∧ exec (canonical i) s = .next u ∧
    t = { u with diag := t.diag } ∧
    t.diag.map (fun d => (d.code, d.pc)) = u.diag.map (fun d => (d.code, d.pc)))

/-! ### The step -/

/-- A step fetches the two bytes at pc, high byte first, decodes them and executes the instruction; it adds nothing around
`exec`, which ticks the timers and moves pc itself (log 11). An odd pc is legal (D24). -/
def Obligations.StepRunsDecodedInstruction : Prop :=
  ∀ (s : State) (i : Instr), s.loaded = true → s.halted = false → s.pc.toNat ≤ 0xFFE →
    decode (wordOfBytes (s.readByte s.pc.toNat) (s.readByte (s.pc.toNat + 1))) = .op i →
    step s = exec i s

/-- 40_execution_cycle.md section 1 (R101, D28): without a ROM a step is refused; a halted machine's step has no effect, no
beep and no diagnostic. That the second is a next state and the first a refusal is the model's reading (log 7). -/
def Obligations.StepRefusedOrWithoutEffect : Prop :=
  ∀ s : State,
    (s.loaded = false → step s = .refused .notLoaded) ∧
    (s.loaded = true → s.halted = true →
      ∃ t, step s = .next t ∧ t.beep = false ∧ t.diag = none ∧
        t = { s with beep := t.beep, diag := t.diag, rndIn := t.rndIn })

/-- The fetch fault of 60_exceptions.md section 1 (R206, the spec's decision D11): a fetch past 0xFFE sets fault and
halted, reports (FETCH_RANGE, -, pc), and changes nothing else, with no tick and no beep; and no number of later steps has
any effect. -/
def Obligations.FetchFaultHaltsForGood : Prop :=
  ∀ s : State, s.loaded = true → s.halted = false → 0xFFE < s.pc.toNat →
    ∃ t, step s = .next t ∧ t.fault = true ∧ t.halted = true ∧ t.beep = false ∧
      t.diag = some ⟨.fetchRange, none, s.pc⟩ ∧
      t = { s with fault := t.fault, halted := t.halted, beep := t.beep, diag := t.diag, rndIn := t.rndIn } ∧
      ∀ n : Nat, ∃ u, Sys2Proof.core.run n t = .next u ∧
        u = { t with diag := u.diag } ∧ (0 < n → u.diag = none)

/-- Every step of a loaded machine answers a next state: no instruction, no word and no data end a run ("Nothing in the core
is expected to crash the host process", 60_exceptions.md section 1; log 8). -/
def Obligations.LoadedMachineAlwaysSteps : Prop :=
  ∀ s : State, s.loaded = true → ∃ t, step s = .next t

/-- R203: whether a performed step reports a decode error, and which, is what the table of causes says of the fetched
word and the pre-step state; the event carries the code, the raw word and the pc. -/
def Obligations.DecodeErrorCauses : Prop :=
  ∀ s : State, s.loaded = true → s.halted = false → s.pc.toNat ≤ 0xFFE →
    ∃ t, step s = .next t ∧ t.diag = (wordCause s.fetchWord s).map (fun c => ⟨c, some s.fetchWord, s.pc⟩)

/-- 60_exceptions.md section 1 (R201, D12; R205, derived): a step that is a decode error writes no architectural state,
moves pc on by 2, ticks the timers and reports the event. -/
def Obligations.DecodeErrorWritesNothing : Prop :=
  ∀ (s : State) (c : DiagCode), s.loaded = true → s.halted = false → s.pc.toNat ≤ 0xFFE →
    wordCause s.fetchWord s = some c →
    ∃ t, step s = .next t ∧ ReportedNoOp c s.fetchWord s t

/-- 60_exceptions.md R211: every performed step ticks both timers once, on the values its instruction left, and beeps iff ST
was then exactly 1. That a decode error and a Hold step tick too (40_execution_cycle.md R109), and that a fetch-fault step
(60_exceptions.md R206) and a halted machine's step (R101) tick nothing and do not beep, is the spec's decision: D32, D11,
D28 (log 14). -/
def Obligations.EveryPerformedStepTicks : Prop :=
  ∀ s t : State, step s = .next t →
    (s.halted = false → s.pc.toNat ≤ 0xFFE →
      TickedFrom (dtBeforeTick (decode s.fetchWord) s) t.dt ∧ TickedFrom (stBeforeTick (decode s.fetchWord) s) t.st ∧
      (t.beep = true ↔ (stBeforeTick (decode s.fetchWord) s).toNat = 1)) ∧
    (s.halted = true ∨ 0xFFE < s.pc.toNat → t.dt = s.dt ∧ t.st = s.st ∧ t.beep = false)

/-- R37: the two outputs of a step exist only for that step; nothing a step does depends on those of the step before. -/
def Obligations.OutputsAreNeverRead : Prop :=
  ∀ (s : State) (b : Bool) (d : Option Diag), step { s with beep := b, diag := d } = step s

/-- The free random byte (44_immediate_index_random.md R164, D21; log 4): a step looks at it only in RND. For every other
word the byte given makes no difference. -/
def Obligations.OnlyRndReadsTheRandomByte : Prop :=
  ∀ (s : State) (a b : Byte), (∀ x nn, decode s.fetchWord ≠ .op (.rnd x nn)) → stepWith a s = stepWith b s

/-! ### The invariant -/

/-- Every step keeps the invariant, from every state that has it, reachable or not. -/
def Obligations.StepKeepsInvariant : Prop :=
  ∀ s t : State, Inv s → step s = .next t → Inv t

/-- The state after construction has the invariant (the values of 70_reset_and_hazards.md section 1, most of them D22). -/
def Obligations.ResetHasInvariant : Prop := Inv State.reset

/-- Every operation of the host keeps the invariant, and so every state that any sequence of loads, key changes, steps and
reads can reach from construction, with any FONT and any parameters, has it. -/
def Obligations.EveryReachableStateHasInvariant : Prop :=
  (∀ (o : HostOp) (s t : State), Inv s → hostStep o s = .next t → Inv t) ∧
  (∀ (font : Vector Byte 80) (p : Params) (os : List HostOp), Inv (hostRun os (State.construct font p)))

/-- 60_exceptions.md section 5 (R214, D28): halted is set only by a fetch fault, and no operation of the host clears it. -/
def Obligations.HaltedOnlyByFetchFault : Prop :=
  ∀ (o : HostOp) (s t : State), hostStep o s = .next t →
    (s.halted = true → t.halted = true) ∧
    (s.halted = false → t.halted = true → 0xFFE < s.pc.toNat ∧ ∃ rnd, o = .step rnd)

/-- The model's own canonical form of memory: one list for one content: two canonical memories that read alike at every
address are equal. -/
def Obligations.CanonicalMemoriesAreEqualData : Prop :=
  ∀ m n : List Host.Cell, Memory.wf m → Memory.wf n → (∀ a, Memory.read m a = Memory.read n a) → m = n

/-! ### Whole-machine frames -/

/-- No instruction writes a register other than its X destination, VF where it is one of the seven flag writers, and V0..VX
for LD VX, [I] (10_state.md sections 1 and 2; that OR, AND and XOR write no flag is D5). -/
def Obligations.RegisterWriters : Prop :=
  ∀ (i : Instr) (s t : State) (k : Nibble), exec i s = .next t → mayWriteReg i k = false → t.reg k = s.reg k

/-- No instruction changes a byte of memory but LD B (three bytes at I) and LD [I], VX (X + 1 bytes at I)
(the table of accesses of 20_memory.md section 3). -/
def Obligations.MemoryWriters : Prop :=
  ∀ (i : Instr) (s t : State) (a : Nat), exec i s = .next t → mayStoreAt i s a = false → t.readByte a = s.readByte a

/-- I, the call stack and the display are written only by the instructions that name them; keys, signals and parameters by
no instruction (the table of 10_state.md section 9). -/
def Obligations.SpecialStateWriters : Prop :=
  ∀ (i : Instr) (s t : State), exec i s = .next t →
    (mayWriteIndex i = false → t.i = s.i) ∧ (mayReachStack i = false → SameStack s t) ∧
    (mayWriteDisplay i = false → SameDisplay s t) ∧ SameHostSide s t

/-- Where pc goes (40_execution_cycle.md section 1, R104; Hold is D16): only JP, JP V0, CALL and RET jump, only the six skips
may move it by 4, only LD VX, K may hold it; every other instruction, and every step that reports a decode error, moves it
by 2. -/
def Obligations.PcOutcomes : Prop :=
  ∀ (i : Instr) (s t : State), exec i s = .next t →
    (mayJump i = false → maySkip i = false → mayHold i = false → PcPlus 2 s t) ∧
    (maySkip i = true → PcPlus 2 s t ∨ PcPlus 4 s t) ∧
    (mayHold i = true → PcPlus 2 s t ∨ t.pc = s.pc) ∧
    (t.diag ≠ none → PcPlus 2 s t)

/-! ### Control transfer (41_control_flow.md) -/

/-- R120: JP NNN sets pc to NNN, with no advance of 2 besides, and writes nothing else. -/
def Obligations.JumpSetsPc : Prop :=
  ∀ nnn : Addr,
    decode (0x1#4 ++ nnn) = .op (.jp nnn) ∧
    ∀ s : State, ∃ t, exec (.jp nnn) s = .next t ∧ t.pc.toNat = nnn.toNat ∧ OnlyRegs [] s t ∧ Ticked s t ∧ t.diag = none

/-- JP V0, NNN sets pc to NNN + V0, unmasked, and writes nothing else (41_control_flow.md R123: the spec's general knowledge,
D8). -/
def Obligations.JumpWithOffsetAddsV0 : Prop :=
  ∀ nnn : Addr,
    decode (0xB#4 ++ nnn) = .op (.jpV0 nnn) ∧
    ∀ s : State, ∃ t, exec (.jpV0 nnn) s = .next t ∧ t.pc.toNat = nnn.toNat + (s.reg 0).toNat ∧ OnlyRegs [] s t ∧
      Ticked s t ∧ t.diag = none

/-- CALL pushes its own address and jumps; with 16 slots occupied it is the decode error STACK_OVERFLOW (41_control_flow.md
R121, D34). -/
def Obligations.CallPushesItsOwnAddress : Prop :=
  ∀ nnn : Addr,
    decode (0x2#4 ++ nnn) = .op (.call nnn) ∧
    ∀ s : State,
      (s.sp.val < 16 → ∃ t, exec (.call nnn) s = .next t ∧ t.slot s.sp.val = s.pc ∧
        (∀ k, k ≠ s.sp.val → t.slot k = s.slot k) ∧ t.sp.val = s.sp.val + 1 ∧ t.pc.toNat = nnn.toNat ∧
        SameRegsBut [] s t ∧ t.i = s.i ∧ SameMem s t ∧ SameDisplay s t ∧ SameHostSide s t ∧ Ticked s t ∧
        t.diag = none) ∧
      (s.sp.val = 16 → ∃ t, exec (.call nnn) s = .next t ∧ ReportedNoOp .stackOverflow (0x2#4 ++ nnn) s t)

/-- RET (41_control_flow.md R122) pops and resumes at the popped address plus 2, past the CALL (90_conflicts.md C1); every
0??E word is RET. That RET with an empty stack is the decode error STACK_UNDERFLOW and goes on is the spec's decision D34,
and that the popped slot keeps its value is D35 (log 14). -/
def Obligations.RetResumesPastTheCall : Prop :=
  ∀ ign : Byte,
    decode (0x0#4 ++ ign ++ 0xE#4) = .op (.ret ign) ∧
    ∀ s : State,
      (0 < s.sp.val → ∃ t, exec (.ret ign) s = .next t ∧ t.sp.val = s.sp.val - 1 ∧ t.stack = s.stack ∧
        t.pc.toNat = ((s.slot (s.sp.val - 1)).toNat + 2) % 0x10000 ∧
        SameRegsBut [] s t ∧ t.i = s.i ∧ SameMem s t ∧ SameDisplay s t ∧ SameHostSide s t ∧ Ticked s t ∧
        t.diag = none) ∧
      (s.sp.val = 0 → ∃ t, exec (.ret ign) s = .next t ∧
        ReportedNoOp .stackUnderflow (0x0#4 ++ ign ++ 0xE#4) s t)

/-- A CALL and the RET that answers it come back to the instruction after the CALL at the same call depth, whatever the
subroutine did in between that kept the depth and the slot (the worked example behind 90_conflicts.md C1). -/
def Obligations.CallThenRetComesBack : Prop :=
  ∀ (nnn : Addr) (ign : Byte) (s t v : State), s.sp.val < 16 → exec (.call nnn) s = .next t →
    v.sp = t.sp → v.slot s.sp.val = t.slot s.sp.val →
    ∃ u, exec (.ret ign) v = .next u ∧ u.pc.toNat = (s.pc.toNat + 2) % 0x10000 ∧ u.sp = s.sp

/-- 41_control_flow.md R124 (D29): a SYS word is a reported no-op (the constructor `sys`: log 1). -/
def Obligations.SysIsReportedNoOp : Prop :=
  ∀ nnn : Addr,
    (nnn.toNat % 16 ≠ 0x0 → nnn.toNat % 16 ≠ 0xE → decode (0x0#4 ++ nnn) = .op (.sys nnn)) ∧
    (nnn.toNat % 16 = 0x0 → ∃ z, decode (0x0#4 ++ nnn) = .op (.cls z)) ∧
    (nnn.toNat % 16 = 0xE → ∃ z, decode (0x0#4 ++ nnn) = .op (.ret z)) ∧
    ∀ s : State, ∃ t, exec (.sys nnn) s = .next t ∧ ReportedNoOp .unrecognized (0x0#4 ++ nnn) s t

/-! ### Skips (42_conditional_skip.md, 46_keys_timers.md) -/

/-- R130, R131: SE and SNE with a byte move pc by 4 or by 2 and write nothing. -/
def Obligations.SkipOnByte : Prop :=
  ∀ (x : Nibble) (nn : Byte),
    decode (0x3#4 ++ x ++ nn) = .op (.seImm x nn) ∧ decode (0x4#4 ++ x ++ nn) = .op (.sneImm x nn) ∧
    ∀ s : State,
      (∃ t, exec (.seImm x nn) s = .next t ∧ OnlyRegs [] s t ∧
        (s.reg x = nn → EndsNormally 4 s t) ∧ (s.reg x ≠ nn → EndsNormally 2 s t)) ∧
      (∃ t, exec (.sneImm x nn) s = .next t ∧ OnlyRegs [] s t ∧
        (s.reg x ≠ nn → EndsNormally 4 s t) ∧ (s.reg x = nn → EndsNormally 2 s t))

/-- R132, R133: SE and SNE of two registers, whatever the low nibble of the word. -/
def Obligations.SkipOnRegister : Prop :=
  ∀ x y ign : Nibble,
    decode (0x5#4 ++ x ++ y ++ ign) = .op (.seReg x y ign) ∧ decode (0x9#4 ++ x ++ y ++ ign) = .op (.sneReg x y ign) ∧
    ∀ s : State,
      (∃ t, exec (.seReg x y ign) s = .next t ∧ OnlyRegs [] s t ∧
        (s.reg x = s.reg y → EndsNormally 4 s t) ∧ (s.reg x ≠ s.reg y → EndsNormally 2 s t)) ∧
      (∃ t, exec (.sneReg x y ign) s = .next t ∧ OnlyRegs [] s t ∧
        (s.reg x ≠ s.reg y → EndsNormally 4 s t) ∧ (s.reg x = s.reg y → EndsNormally 2 s t))

/-- SKP and SKNP test the key named by V[X]; a value above 15 is the decode error KEY_RANGE (46_keys_timers.md R180, R181,
D12, D33). -/
def Obligations.SkipOnKey : Prop :=
  ∀ x ign : Nibble,
    decode (0xE#4 ++ x ++ ign ++ 0xE#4) = .op (.skp x ign) ∧ decode (0xE#4 ++ x ++ ign ++ 0x1#4) = .op (.sknp x ign) ∧
    ∀ s : State,
      (∀ h : (s.reg x).toNat < 16,
        (∃ t, exec (.skp x ign) s = .next t ∧ OnlyRegs [] s t ∧
          (s.keys[(s.reg x).toNat] = true → EndsNormally 4 s t) ∧
          (s.keys[(s.reg x).toNat] = false → EndsNormally 2 s t)) ∧
        (∃ t, exec (.sknp x ign) s = .next t ∧ OnlyRegs [] s t ∧
          (s.keys[(s.reg x).toNat] = false → EndsNormally 4 s t) ∧
          (s.keys[(s.reg x).toNat] = true → EndsNormally 2 s t))) ∧
      (15 < (s.reg x).toNat →
        (∃ t, exec (.skp x ign) s = .next t ∧ ReportedNoOp .keyRange (0xE#4 ++ x ++ ign ++ 0xE#4) s t) ∧
        (∃ t, exec (.sknp x ign) s = .next t ∧ ReportedNoOp .keyRange (0xE#4 ++ x ++ ign ++ 0x1#4) s t))

/-! ### Register arithmetic and logic (43_alu.md) -/

/-- LD, OR, AND, XOR of two registers; VF changes only as a destination (43_alu.md R141 to R144; D7 gives LD its meaning, D5
leaves VF alone in the others). -/
def Obligations.CopyAndLogic : Prop :=
  ∀ x y : Nibble,
    decode (0x8#4 ++ x ++ y ++ 0x0#4) = .op (.ldReg x y) ∧ decode (0x8#4 ++ x ++ y ++ 0x1#4) = .op (.orReg x y) ∧
    decode (0x8#4 ++ x ++ y ++ 0x2#4) = .op (.andReg x y) ∧ decode (0x8#4 ++ x ++ y ++ 0x3#4) = .op (.xorReg x y) ∧
    ∀ s : State,
      (∃ t, exec (.ldReg x y) s = .next t ∧ t.reg x = s.reg y ∧ OnlyRegs [x] s t ∧ EndsNormally 2 s t) ∧
      (∃ t, exec (.orReg x y) s = .next t ∧ (t.reg x).toNat = (s.reg x).toNat ||| (s.reg y).toNat ∧
        OnlyRegs [x] s t ∧ EndsNormally 2 s t) ∧
      (∃ t, exec (.andReg x y) s = .next t ∧ (t.reg x).toNat = (s.reg x).toNat &&& (s.reg y).toNat ∧
        OnlyRegs [x] s t ∧ EndsNormally 2 s t) ∧
      (∃ t, exec (.xorReg x y) s = .next t ∧ (t.reg x).toNat = (s.reg x).toNat ^^^ (s.reg y).toNat ∧
        OnlyRegs [x] s t ∧ EndsNormally 2 s t)

/-- R145: ADD VX, VY; the flag is the carry, and with X = F the sum is what stays. -/
def Obligations.AddSetsCarry : Prop :=
  ∀ x y : Nibble,
    decode (0x8#4 ++ x ++ y ++ 0x4#4) = .op (.addReg x y) ∧
    ∀ s : State, ∃ t, exec (.addReg x y) s = .next t ∧
      (t.reg x).toNat = ((s.reg x).toNat + (s.reg y).toNat) % 256 ∧
      (x ≠ VF → t.reg VF = if (s.reg x).toNat + (s.reg y).toNat > 255 then 1 else 0) ∧
      OnlyRegs [x, VF] s t ∧ EndsNormally 2 s t

/-- R146, R148: SUB and SUBN; the flag is NOT borrow, and with X = F the difference is what stays. -/
def Obligations.SubtractionsSetNoBorrow : Prop :=
  ∀ x y : Nibble,
    decode (0x8#4 ++ x ++ y ++ 0x5#4) = .op (.subReg x y) ∧ decode (0x8#4 ++ x ++ y ++ 0x7#4) = .op (.subnReg x y) ∧
    ∀ s : State,
      (∃ t, exec (.subReg x y) s = .next t ∧
        ((t.reg x).toNat : Int) = (((s.reg x).toNat : Int) - (s.reg y).toNat) % 256 ∧
        (x ≠ VF → t.reg VF = if (s.reg y).toNat > (s.reg x).toNat then 0 else 1) ∧
        OnlyRegs [x, VF] s t ∧ EndsNormally 2 s t) ∧
      (∃ t, exec (.subnReg x y) s = .next t ∧
        ((t.reg x).toNat : Int) = (((s.reg y).toNat : Int) - (s.reg x).toNat) % 256 ∧
        (x ≠ VF → t.reg VF = if (s.reg x).toNat > (s.reg y).toNat then 0 else 1) ∧
        OnlyRegs [x, VF] s t ∧ EndsNormally 2 s t)

/-- SHR and SHL shift VX by one, the flag is the bit shifted out, and the Y field of the word is not used (43_alu.md R147,
R149, D6). -/
def Obligations.ShiftsSetTheBitShiftedOut : Prop :=
  ∀ x ign : Nibble,
    decode (0x8#4 ++ x ++ ign ++ 0x6#4) = .op (.shr x ign) ∧ decode (0x8#4 ++ x ++ ign ++ 0xE#4) = .op (.shl x ign) ∧
    ∀ s : State,
      (∃ t, exec (.shr x ign) s = .next t ∧ (t.reg x).toNat = (s.reg x).toNat / 2 ∧
        (x ≠ VF → t.reg VF = if (s.reg x).getLsbD 0 then 1 else 0) ∧
        OnlyRegs [x, VF] s t ∧ EndsNormally 2 s t) ∧
      (∃ t, exec (.shl x ign) s = .next t ∧ (t.reg x).toNat = (s.reg x).toNat * 2 % 256 ∧
        (x ≠ VF → t.reg VF = if (s.reg x).getLsbD 7 then 1 else 0) ∧
        OnlyRegs [x, VF] s t ∧ EndsNormally 2 s t)

/-! ### Immediate, index and random (44_immediate_index_random.md) -/

/-- R160, R161: LD VX, NN and ADD VX, NN; no flag. -/
def Obligations.ImmediateLoadAndAdd : Prop :=
  ∀ (x : Nibble) (nn : Byte),
    decode (0x6#4 ++ x ++ nn) = .op (.ldImm x nn) ∧ decode (0x7#4 ++ x ++ nn) = .op (.addImm x nn) ∧
    ∀ s : State,
      (∃ t, exec (.ldImm x nn) s = .next t ∧ t.reg x = nn ∧ OnlyRegs [x] s t ∧ EndsNormally 2 s t) ∧
      (∃ t, exec (.addImm x nn) s = .next t ∧ (t.reg x).toNat = ((s.reg x).toNat + nn.toNat) % 256 ∧
        OnlyRegs [x] s t ∧ EndsNormally 2 s t)

/-- R162: LD I, NNN sets I to the 12-bit literal and writes nothing else. -/
def Obligations.LoadIndexSetsI : Prop :=
  ∀ nnn : Addr,
    decode (0xA#4 ++ nnn) = .op (.ldI nnn) ∧
    ∀ s : State, ∃ t, exec (.ldI nnn) s = .next t ∧ t.i.toNat = nnn.toNat ∧
      SameRegsBut [] s t ∧ SameMem s t ∧ SameStack s t ∧ SameDisplay s t ∧ SameHostSide s t ∧ EndsNormally 2 s t

/-- LD F, VX sets I to V[X] * 5, unmasked and without an error, and writes nothing else (47_memory_transfer.md R190, D20). -/
def Obligations.FontAddressIsFiveTimesVx : Prop :=
  ∀ x ign : Nibble,
    decode (0xF#4 ++ x ++ ign ++ 0x9#4) = .op (.ldF x ign) ∧
    ∀ s : State, ∃ t, exec (.ldF x ign) s = .next t ∧ t.i.toNat = (s.reg x).toNat * 5 ∧
      SameRegsBut [] s t ∧ SameMem s t ∧ SameStack s t ∧ SameDisplay s t ∧ SameHostSide s t ∧ EndsNormally 2 s t

/-- ADD I, VX; the flag tells whether the exact sum exceeds 0xFFF, and I keeps 16 bits (44_immediate_index_random.md R163,
D10). -/
def Obligations.IndexAddSetsOverflow : Prop :=
  ∀ x ign : Nibble,
    decode (0xF#4 ++ x ++ ign ++ 0xE#4) = .op (.addI x ign) ∧
    ∀ s : State, ∃ t, exec (.addI x ign) s = .next t ∧
      t.i.toNat = (s.i.toNat + (s.reg x).toNat) % 0x10000 ∧
      t.reg VF = (if s.i.toNat + (s.reg x).toNat > 0xFFF then 1 else 0) ∧
      SameRegsBut [VF] s t ∧ SameMem s t ∧ SameStack s t ∧ SameDisplay s t ∧ SameHostSide s t ∧ EndsNormally 2 s t

/-- RND VX, NN (44_immediate_index_random.md R164, D21; log 4) masks the step's random byte, which may be any byte: the one
the host gives, whatever it is, and otherwise the free value of this step. -/
def Obligations.RndMasksAnyByte : Prop :=
  ∀ (x : Nibble) (nn : Byte),
    decode (0xC#4 ++ x ++ nn) = .op (.rnd x nn) ∧
    ∀ s : State, ∃ t, exec (.rnd x nn) s = .next t ∧
      (∀ b : Byte, s.rndIn = some b → t.reg x = b &&& nn) ∧
      (s.rndIn = none → t.reg x = Config.rndByte s.draws &&& nn) ∧ OnlyRegs [x] s t ∧ EndsNormally 2 s t

/-! ### Display (45_display.md) -/

/-- R170: CLS clears every cell and sets dirty. -/
def Obligations.ClsClearsEveryCell : Prop :=
  ∀ ign : Byte,
    decode (0x0#4 ++ ign ++ 0x0#4) = .op (.cls ign) ∧
    ∀ s : State, ∃ t, exec (.cls ign) s = .next t ∧
      (∀ x y, x < 64 → y < 32 → Display.cell t.disp x y = false) ∧ t.dirty = true ∧
      SameRegsBut [] s t ∧ t.i = s.i ∧ SameMem s t ∧ SameStack s t ∧ SameHostSide s t ∧ EndsNormally 2 s t

/-- DRW (45_display.md R171 to R173, with D17 the edge rule, D18 the bit order, D19 N = 0) inverts exactly the cells that a
set pixel of the N-row sprite at I lands on under SPRITE_EDGE, VF tells whether one of them was 1, dirty is set; a sprite
that would pass 0xFFF is the decode error MEM_RANGE. -/
def Obligations.DrwDrawsTheSprite : Prop :=
  ∀ x y n : Nibble,
    decode (0xD#4 ++ x ++ y ++ n) = .op (.drw x y n) ∧
    ∀ s : State,
      (n.toNat = 0 ∨ s.i.toNat + n.toNat - 1 ≤ 0xFFF → ∃ t, exec (.drw x y n) s = .next t ∧
        (∀ cx cy, cx < 64 → cy < 32 →
          (SpriteHits s (s.reg x).toNat (s.reg y).toNat n.toNat cx cy →
            Display.cell t.disp cx cy = !Display.cell s.disp cx cy) ∧
          (¬SpriteHits s (s.reg x).toNat (s.reg y).toNat n.toNat cx cy →
            Display.cell t.disp cx cy = Display.cell s.disp cx cy)) ∧
        (t.reg VF = 0 ∨ t.reg VF = 1) ∧
        (t.reg VF = 1 ↔ ∃ cx cy, cx < 64 ∧ cy < 32 ∧ Display.cell s.disp cx cy = true ∧
          Display.cell t.disp cx cy = false) ∧
        t.dirty = true ∧
        SameRegsBut [VF] s t ∧ t.i = s.i ∧ SameMem s t ∧ SameStack s t ∧ SameHostSide s t ∧ EndsNormally 2 s t) ∧
      (0 < n.toNat → s.i.toNat + n.toNat - 1 > 0xFFF →
        ∃ t, exec (.drw x y n) s = .next t ∧ ReportedNoOp .memRange (0xD#4 ++ x ++ y ++ n) s t)

/-- Drawing the same sprite twice at the same coordinates restores the whole display, on any display, at any coordinates
and under both edge rules (X and Y other than F, since the first draw overwrites VF). -/
def Obligations.DrawingTwiceRestoresTheDisplay : Prop :=
  ∀ (x y n : Nibble) (s t u : State), x ≠ VF → y ≠ VF →
    exec (.drw x y n) s = .next t → exec (.drw x y n) t = .next u → u.disp = s.disp

/-! ### Keys and timers (46_keys_timers.md) -/

/-- LD VX, K (46_keys_timers.md R182, D15, D16, 90_conflicts.md C4) stores the highest pressed key; with no key pressed it
goes on in Scan mode and holds pc in Block mode, the timers ticking. -/
def Obligations.KeyWaitInBothModes : Prop :=
  ∀ x ign : Nibble,
    decode (0xF#4 ++ x ++ ign ++ 0xA#4) = .op (.ldVxK x ign) ∧
    ∀ s : State,
      (∀ k : Fin 16, s.keys[k] = true → (∀ j : Fin 16, k < j → s.keys[j] = false) →
        ∃ t, exec (.ldVxK x ign) s = .next t ∧ (t.reg x).toNat = k.val ∧ OnlyRegs [x] s t ∧ EndsNormally 2 s t) ∧
      ((∀ k : Fin 16, s.keys[k] = false) →
        ∃ t, exec (.ldVxK x ign) s = .next t ∧ OnlyRegs [] s t ∧ Ticked s t ∧ t.diag = none ∧
          (s.params.keyWait = .scan → PcPlus 2 s t) ∧ (s.params.keyWait = .block → t.pc = s.pc))

/-- R183, R184, R185: LD VX, DT reads DT before the tick; LD DT, VX and LD ST, VX write a timer that the same step then
ticks, and ST = 1 so written beeps. -/
def Obligations.TimerTransfers : Prop :=
  ∀ x ign : Nibble,
    decode (0xF#4 ++ x ++ ign ++ 0x7#4) = .op (.ldVxDt x ign) ∧ decode (0xF#4 ++ x ++ 0x15#8) = .op (.ldDtVx x) ∧
    decode (0xF#4 ++ x ++ ign ++ 0x8#4) = .op (.ldStVx x ign) ∧
    ∀ s : State,
      (∃ t, exec (.ldVxDt x ign) s = .next t ∧ t.reg x = s.dt ∧ OnlyRegs [x] s t ∧ EndsNormally 2 s t) ∧
      (∃ t, exec (.ldDtVx x) s = .next t ∧ OnlyRegs [] s t ∧ PcPlus 2 s t ∧ t.diag = none ∧
        TickedFrom (s.reg x) t.dt ∧ TickedFrom s.st t.st ∧ (t.beep = true ↔ s.st.toNat = 1)) ∧
      (∃ t, exec (.ldStVx x ign) s = .next t ∧ OnlyRegs [] s t ∧ PcPlus 2 s t ∧ t.diag = none ∧
        TickedFrom s.dt t.dt ∧ TickedFrom (s.reg x) t.st ∧ (t.beep = true ↔ (s.reg x).toNat = 1))

/-! ### Memory transfer (47_memory_transfer.md) -/

/-- R191: LD B stores hundreds, tens and ones at I, I+1, I+2 and leaves I; past 0xFFF it is the decode error MEM_RANGE. -/
def Obligations.BcdStoresThreeDigits : Prop :=
  ∀ x ign : Nibble,
    decode (0xF#4 ++ x ++ ign ++ 0x3#4) = .op (.ldB x ign) ∧
    ∀ s : State, Memory.wf s.mem →
      (s.i.toNat + 2 ≤ 0xFFF → ∃ t, exec (.ldB x ign) s = .next t ∧
        (t.readByte s.i.toNat).toNat = (s.reg x).toNat / 100 ∧
        (t.readByte (s.i.toNat + 1)).toNat = (s.reg x).toNat / 10 % 10 ∧
        (t.readByte (s.i.toNat + 2)).toNat = (s.reg x).toNat % 10 ∧
        SameMemOutside s.i.toNat 3 s t ∧
        SameRegsBut [] s t ∧ t.i = s.i ∧ SameStack s t ∧ SameDisplay s t ∧ SameHostSide s t ∧ EndsNormally 2 s t) ∧
      (s.i.toNat + 2 > 0xFFF → ∃ t, exec (.ldB x ign) s = .next t ∧
        ReportedNoOp .memRange (0xF#4 ++ x ++ ign ++ 0x3#4) s t)

/-- R192: LD [I], VX stores V0..VX at I, I+1, ... and advances I by X + 1; past 0xFFF it is the decode error MEM_RANGE. -/
def Obligations.StoreRegistersToMemory : Prop :=
  ∀ x : Nibble,
    decode (0xF#4 ++ x ++ 0x55#8) = .op (.storeRegs x) ∧
    ∀ s : State, Memory.wf s.mem →
      (s.i.toNat + x.toNat ≤ 0xFFF → ∃ t, exec (.storeRegs x) s = .next t ∧
        (∀ k : Nibble, k.toNat ≤ x.toNat → t.readByte (s.i.toNat + k.toNat) = s.reg k) ∧
        SameMemOutside s.i.toNat (x.toNat + 1) s t ∧ t.i.toNat = s.i.toNat + x.toNat + 1 ∧
        SameRegsBut [] s t ∧ SameStack s t ∧ SameDisplay s t ∧ SameHostSide s t ∧ EndsNormally 2 s t) ∧
      (s.i.toNat + x.toNat > 0xFFF → ∃ t, exec (.storeRegs x) s = .next t ∧
        ReportedNoOp .memRange (0xF#4 ++ x ++ 0x55#8) s t)

/-- R193: LD VX, [I] loads V0..VX from I, I+1, ... and advances I by X + 1; past 0xFFF it is the decode error MEM_RANGE. -/
def Obligations.LoadRegistersFromMemory : Prop :=
  ∀ x : Nibble,
    decode (0xF#4 ++ x ++ 0x65#8) = .op (.loadRegs x) ∧
    ∀ s : State,
      (s.i.toNat + x.toNat ≤ 0xFFF → ∃ t, exec (.loadRegs x) s = .next t ∧
        (∀ k : Nibble, k.toNat ≤ x.toNat → t.reg k = s.readByte (s.i.toNat + k.toNat)) ∧
        (∀ k : Nibble, x.toNat < k.toNat → t.reg k = s.reg k) ∧ t.i.toNat = s.i.toNat + x.toNat + 1 ∧
        SameMem s t ∧ SameStack s t ∧ SameDisplay s t ∧ SameHostSide s t ∧ EndsNormally 2 s t) ∧
      (s.i.toNat + x.toNat > 0xFFF → ∃ t, exec (.loadRegs x) s = .next t ∧
        ReportedNoOp .memRange (0xF#4 ++ x ++ 0x65#8) s t)

/-- Storing V0..VX, pointing I back, and loading them gives every one of those registers back, whatever the registers held
when the load began (the source's property S7, 47_memory_transfer.md R192, R193). -/
def Obligations.StoreThenLoadRoundTrips : Prop :=
  ∀ (x : Nibble) (s t v : State), Memory.wf s.mem → s.i.toNat + x.toNat ≤ 0xFFF → exec (.storeRegs x) s = .next t →
    v.mem = t.mem → v.i = s.i →
    ∃ u, exec (.loadRegs x) v = .next u ∧ ∀ k : Nibble, k.toNat ≤ x.toNat → u.reg k = s.reg k

/-- Stored bytes are what the next fetch sees, with no fence (20_memory.md R63, D25; 70_reset_and_hazards.md R236, derived
there). After every instruction, LD B and LD [I], VX among them, each of the two bytes fetched at the new pc is the byte
just stored at its address, or what was there where none was stored: so for a word inside the stored bytes, across either
edge of them, and outside. The next step runs what that word decodes to. -/
def Obligations.StoredBytesAreFetchedNext : Prop :=
  ∀ (i : Instr) (s t : State), Memory.wf s.mem → exec i s = .next t →
    t.fetchWord = wordOfBytes (byteAfter i s t.pc.toNat) (byteAfter i s (t.pc.toNat + 1)) ∧
    (∀ j : Instr, t.loaded = true → t.halted = false → t.pc.toNat ≤ 0xFFE →
      decode (wordOfBytes (byteAfter i s t.pc.toNat) (byteAfter i s (t.pc.toNat + 1))) = .op j → step t = exec j t)

/-! ### Reset and the host (70_reset_and_hazards.md, 60_exceptions.md) -/

/-- 70_reset_and_hazards.md section 1 (R230, R231; V, I and PC are the source's, the rest D22) and the font of 20_memory.md
section 5 (D23), log 13: the state after construction: every value of the table, the FONT given to the construction at
0x000..0x04F (log 6), zero at every other address; the default font is the table there. The parameters KEY_WAIT_MODE and
SPRITE_EDGE are those given to the construction, held in a field of the model's own (00_scope.md R5, log 5). -/
def Obligations.ConstructionState : Prop :=
  (∀ (font : Vector Byte 80) (p : Params) (s : State), s = State.construct font p →
    (∀ k, s.reg k = 0) ∧ s.i = 0 ∧ s.pc = 0x200 ∧ s.sp = 0 ∧ (∀ k, k < 16 → s.slot k = 0) ∧ s.dt = 0 ∧ s.st = 0 ∧
    (∀ x y, x < 64 → y < 32 → Display.cell s.disp x y = false) ∧ s.dirty = false ∧
    (∀ k : Fin 16, s.keys[k] = false) ∧ s.halted = false ∧ s.fault = false ∧ s.loaded = false ∧
    s.params = p ∧ (∀ a : Fin 80, s.readByte a.val = font[a]) ∧ (∀ a, 0x50 ≤ a → s.readByte a = 0)) ∧
  State.construct standardFont Params.default = State.reset ∧
  standardFont.toList =
    [0xF0, 0x90, 0x90, 0x90, 0xF0, 0x20, 0x60, 0x20, 0x20, 0x70, 0xF0, 0x10, 0xF0, 0x80, 0xF0, 0xF0, 0x10, 0xF0, 0x10, 0xF0,
      0x90, 0x90, 0xF0, 0x10, 0x10, 0xF0, 0x80, 0xF0, 0x10, 0xF0, 0xF0, 0x80, 0xF0, 0x90, 0xF0, 0xF0, 0x10, 0x20, 0x40, 0x40] ++
    [0xF0, 0x90, 0xF0, 0x90, 0xF0, 0xF0, 0x90, 0xF0, 0x10, 0xF0, 0xF0, 0x90, 0xF0, 0x90, 0x90, 0xE0, 0x90, 0xE0, 0x90, 0xE0,
      0xF0, 0x80, 0x80, 0x80, 0xF0, 0xE0, 0x90, 0x90, 0x90, 0xE0, 0xF0, 0x80, 0xF0, 0x80, 0xF0, 0xF0, 0x80, 0xF0, 0x80, 0x80]

/-- 70_reset_and_hazards.md section 1 (R232; the second load is D30): LoadROM puts the bytes at 0x200 and up and sets
loaded, changing nothing else; a ROM of more than 3584 bytes is a load error and a second load is refused (as outcomes: log
9). -/
def Obligations.LoadRomLoadsVerbatim : Prop :=
  ∀ (rom : List Byte) (s : State), Memory.wf s.mem →
    (s.loaded = true → loadRom rom s = .refused .alreadyLoaded) ∧
    (s.loaded = false → rom.length > 3584 → loadRom rom s = .fault .romTooLarge) ∧
    (s.loaded = false → rom.length ≤ 3584 → ∃ t, loadRom rom s = .next t ∧ t.loaded = true ∧
      (∀ k, (h : k < rom.length) → t.readByte (0x200 + k) = rom[k]) ∧
      SameMemOutside 0x200 rom.length s t ∧ t = { s with mem := t.mem, loaded := t.loaded })

/-- The host's other operations touch only what 60_exceptions.md R213 (D22, D31) gives them: SetKeys the keys, ConsumeDisplay
the dirty flag, the two reads nothing. That Step(RND) is `step` with the byte in `rndIn` is the model's choice (log 4). That an
error or a refusal has no effect is 40_execution_cycle.md R101 (D28) and 70_reset_and_hazards.md R232 (D30); that such an
outcome carries no state and `hostRun` then goes on with the old one is the model's choice (logs 9 and 17). -/
def Obligations.HostTouchesOnlyItsState : Prop :=
  ∀ s : State,
    (∀ k, hostStep (.setKeys k) s = .next { s with keys := k }) ∧
    hostStep .consumeDisplay s = .next { s with dirty := false } ∧
    hostStep .readDisplay s = .next s ∧ hostStep .readHalt s = .next s ∧
    readDisplay s = (s.disp, s.dirty) ∧ readHalt s = (s.halted, s.fault) ∧
    (∀ rnd, hostStep (.step rnd) s = step { s with rndIn := some rnd }) ∧
    (∀ o os, (∀ t, hostStep o s ≠ .next t) → hostRun (o :: os) s = hostRun os s)
end

