-- ==== Sys2Proof/Laws/Display.lean ====
section
/-! SUPPORT. What drawing does to every cell and to the collision flag (45_display.md R171 to R173): a sprite inverts exactly
the cells its set pixels land on, each once, and the flag tells whether one of them was 1. -/

namespace Sys2Proof.Machine

theorem cell_flip (d : Display) {x y x' y' : Nat} (hx : x < 64) (hy : y < 32) (hx' : x' < 64) (hy' : y' < 32) :
    Display.cell (Display.flip d x y) x' y' =
      if x' = x ∧ y' = y then !Display.cell d x' y' else Display.cell d x' y' := by
  have hk : x' + 64 * y' < 2048 := by omega
  simp only [Display.cell, Display.flip, BitVec.getLsbD_xor, BitVec.getLsbD_twoPow]
  by_cases h : x' = x ∧ y' = y
  · obtain ⟨rfl, rfl⟩ := h
    simp [hk]
  · have : ¬(x + 64 * y = x' + 64 * y') := by omega
    simp [h, this]

theorem lands_iff (e : SpriteEdge) (xa ya x y : Nat) :
    lands e xa ya x y = true ↔ spriteCell e xa ya = some (x, y) := by
  cases e with
  | clip =>
    simp only [lands, spriteCell, Bool.and_eq_true, beq_iff_eq, decide_eq_true_eq]
    split
    · simp; omega
    · simp; omega
  | wrap => simp [lands, spriteCell]

theorem spriteCell_lt {e : SpriteEdge} {xa ya x y : Nat} (h : spriteCell e xa ya = some (x, y)) : x < 64 ∧ y < 32 := by
  cases e with
  | clip =>
    simp only [spriteCell] at h
    split at h
    · simp at h; omega
    · simp at h
  | wrap => simp [spriteCell] at h; omega

theorem lands_lt {e : SpriteEdge} {xa ya x y : Nat} (h : lands e xa ya x y = true) : x < 64 ∧ y < 32 :=
  spriteCell_lt ((lands_iff e xa ya x y).mp h)

/-- Two pixels of one sprite that differ in their column land on no common cell: a sprite is 8 < 64 columns wide. -/
theorem lands_col_inj {e : SpriteEdge} {x0 y x' y' c c' : Nat} (hc : c < 8) (hc' : c' < 8)
    (h : lands e (x0 + c) y x' y' = true) (h' : lands e (x0 + c') y x' y' = true) : c = c' := by
  cases e <;> simp [lands] at h h' <;> omega

/-- Two rows of one sprite land on no common cell: a sprite is at most 32 rows high here. -/
theorem lands_row_inj {e : SpriteEdge} {xa xa' y x' y' r r' : Nat} (hr : r < 32) (hr' : r' < 32)
    (h : lands e xa (y + r) x' y' = true) (h' : lands e xa' (y + r') x' y' = true) : r = r' := by
  cases e <;> simp [lands] at h h' <;> omega

theorem plot_cell (e : SpriteEdge) (xa ya x y : Nat) (g : Drawing) (hx : x < 64) (hy : y < 32) :
    Display.cell (plot e xa ya g).disp x y =
      if lands e xa ya x y = true then !Display.cell g.disp x y else Display.cell g.disp x y := by
  simp only [plot, lands_iff]
  cases h : spriteCell e xa ya with
  | none => simp
  | some p =>
    obtain ⟨px, py⟩ := p
    have hp := spriteCell_lt h
    simp only [cell_flip g.disp hp.1 hp.2 hx hy, Option.some.injEq, Prod.mk.injEq]
    by_cases hh : x = px ∧ y = py
    · obtain ⟨rfl, rfl⟩ := hh; simp
    · have : ¬(px = x ∧ py = y) := by omega
      simp [hh, this]

theorem plot_collision (e : SpriteEdge) (xa ya : Nat) (g : Drawing) :
    (plot e xa ya g).collision = true ↔
      g.collision = true ∨ ∃ x y, lands e xa ya x y = true ∧ Display.cell g.disp x y = true := by
  simp only [plot, lands_iff]
  cases h : spriteCell e xa ya with
  | none => simp
  | some p => obtain ⟨px, py⟩ := p; simp

/-- One of the first `n` pixels of a row drawn at (x0, y) is set and lands on (x, y'). -/
def RowHits (e : SpriteEdge) (x0 y : Nat) (row : Byte) (n x' y' : Nat) : Prop :=
  ∃ c, c < n ∧ spriteBit row c = true ∧ lands e (x0 + c) y x' y' = true

/-- What a row does: the hit cells are inverted, the others stay, and the flag is set iff it was or a hit cell was 1. -/
theorem drawCols_spec (e : SpriteEdge) (x0 y : Nat) (row : Byte) (g : Drawing) : ∀ n, n ≤ 8 →
    (∀ x' y', x' < 64 → y' < 32 →
      (RowHits e x0 y row n x' y' →
        Display.cell (drawCols e x0 y row n g).disp x' y' = !Display.cell g.disp x' y') ∧
      (¬RowHits e x0 y row n x' y' →
        Display.cell (drawCols e x0 y row n g).disp x' y' = Display.cell g.disp x' y')) ∧
    ((drawCols e x0 y row n g).collision = true ↔
      g.collision = true ∨ ∃ x' y', RowHits e x0 y row n x' y' ∧ Display.cell g.disp x' y' = true) := by
  intro n
  induction n with
  | zero =>
    intro _
    refine ⟨fun x' y' _ _ => ⟨fun ⟨c, hc, _⟩ => absurd hc (by omega), fun _ => rfl⟩, ?_⟩
    constructor
    · exact fun h => .inl h
    · rintro (h | ⟨x', y', ⟨c, hc, _⟩, _⟩)
      · exact h
      · omega
  | succ n ih =>
    intro hn
    obtain ⟨ihc, ihf⟩ := ih (by omega)
    have hsucc : ∀ x' y', RowHits e x0 y row (n + 1) x' y' ↔
        RowHits e x0 y row n x' y' ∨ (spriteBit row n = true ∧ lands e (x0 + n) y x' y' = true) := by
      intro x' y'
      constructor
      · rintro ⟨c, hc, hb, hl⟩
        by_cases h : c = n
        · subst h; exact .inr ⟨hb, hl⟩
        · exact .inl ⟨c, by omega, hb, hl⟩
      · rintro (⟨c, hc, hb, hl⟩ | ⟨hb, hl⟩)
        · exact ⟨c, by omega, hb, hl⟩
        · exact ⟨n, by omega, hb, hl⟩
    have hdisj : ∀ x' y', RowHits e x0 y row n x' y' → lands e (x0 + n) y x' y' = true → False := by
      rintro x' y' ⟨c, hc, -, hl⟩ hl'
      have := lands_col_inj (by omega) (by omega) hl hl'
      omega
    by_cases hb : spriteBit row n = true
    · have hd : drawCols e x0 y row (n + 1) g = plot e (x0 + n) y (drawCols e x0 y row n g) := by
        simp [drawCols, hb]
      rw [hd]
      constructor
      · intro x' y' hx hy
        rw [plot_cell e _ _ _ _ _ hx hy, hsucc]
        by_cases hl : lands e (x0 + n) y x' y' = true
        · have hno : ¬RowHits e x0 y row n x' y' := fun h => hdisj x' y' h hl
          rw [if_pos hl, (ihc x' y' hx hy).2 hno]
          exact ⟨fun _ => rfl, fun h => absurd (.inr ⟨hb, hl⟩) h⟩
        · rw [if_neg hl]
          refine ⟨fun h => (ihc x' y' hx hy).1 ?_, fun h => (ihc x' y' hx hy).2 (fun h' => h (.inl h'))⟩
          rcases h with h | ⟨-, h⟩
          · exact h
          · exact absurd h hl
      · rw [plot_collision, ihf]
        constructor
        · rintro ((h | ⟨x', y', h, hc⟩) | ⟨x', y', hl, hc⟩)
          · exact .inl h
          · exact .inr ⟨x', y', (hsucc x' y').mpr (.inl h), hc⟩
          · have hno : ¬RowHits e x0 y row n x' y' := fun h => hdisj x' y' h hl
            have hlt := lands_lt hl
            rw [(ihc x' y' hlt.1 hlt.2).2 hno] at hc
            exact .inr ⟨x', y', (hsucc x' y').mpr (.inr ⟨hb, hl⟩), hc⟩
        · rintro (h | ⟨x', y', h, hc⟩)
          · exact .inl (.inl h)
          · rcases (hsucc x' y').mp h with h | ⟨-, hl⟩
            · exact .inl (.inr ⟨x', y', h, hc⟩)
            · have hno : ¬RowHits e x0 y row n x' y' := fun h => hdisj x' y' h hl
              have hlt := lands_lt hl
              exact .inr ⟨x', y', hl, by rw [(ihc x' y' hlt.1 hlt.2).2 hno]; exact hc⟩
    · have hd : drawCols e x0 y row (n + 1) g = drawCols e x0 y row n g := by simp [drawCols, hb]
      have hiff : ∀ x' y', RowHits e x0 y row (n + 1) x' y' ↔ RowHits e x0 y row n x' y' := by
        intro x' y'; rw [hsucc]; simp [hb]
      simp only [hd, hiff]
      exact ⟨ihc, ihf⟩

/-- A set pixel of some row of a sprite drawn at (x0, y) lands on (x', y'). -/
def RowsHit (e : SpriteEdge) (x0 y : Nat) (rows : List Byte) (x' y' : Nat) : Prop :=
  ∃ r row, rows[r]? = some row ∧ RowHits e x0 (y + r) row 8 x' y'

/-- What a sprite of at most 32 rows does: the hit cells are inverted, the others stay, and the flag is set iff it was or
a hit cell was 1 (R171, R173). -/
theorem drawRows_spec (e : SpriteEdge) (x0 : Nat) (rows : List Byte) : ∀ (y : Nat) (g : Drawing), rows.length ≤ 32 →
    (∀ x' y', x' < 64 → y' < 32 →
      (RowsHit e x0 y rows x' y' → Display.cell (drawRows e x0 y rows g).disp x' y' = !Display.cell g.disp x' y') ∧
      (¬RowsHit e x0 y rows x' y' → Display.cell (drawRows e x0 y rows g).disp x' y' = Display.cell g.disp x' y')) ∧
    ((drawRows e x0 y rows g).collision = true ↔
      g.collision = true ∨ ∃ x' y', RowsHit e x0 y rows x' y' ∧ Display.cell g.disp x' y' = true) := by
  induction rows with
  | nil => intro y g _; simp [drawRows, RowsHit]
  | cons row rows ih =>
    intro y g hlen
    simp only [List.length_cons] at hlen
    obtain ⟨hc, hf⟩ := drawCols_spec e x0 y row g 8 (by omega)
    obtain ⟨ihc, ihf⟩ := ih (y + 1) (drawCols e x0 y row 8 g) (by omega)
    have hcons : ∀ x' y', RowsHit e x0 y (row :: rows) x' y' ↔
        RowHits e x0 y row 8 x' y' ∨ RowsHit e x0 (y + 1) rows x' y' := by
      intro x' y'
      constructor
      · rintro ⟨r, w, hr, h⟩
        cases r with
        | zero => simp at hr; subst hr; exact .inl h
        | succ r => exact .inr ⟨r, w, by simpa using hr, by rw [show y + 1 + r = y + (r + 1) by omega]; exact h⟩
      · rintro (h | ⟨r, w, hr, h⟩)
        · exact ⟨0, row, by simp, h⟩
        · exact ⟨r + 1, w, by simpa using hr, by rw [show y + (r + 1) = y + 1 + r by omega]; exact h⟩
    have hdisj : ∀ x' y', RowHits e x0 y row 8 x' y' → RowsHit e x0 (y + 1) rows x' y' → False := by
      rintro x' y' ⟨c, -, -, hl⟩ ⟨r, w, hr, ⟨c', -, -, hl'⟩⟩
      have hlt : r < rows.length := (List.getElem?_eq_some_iff.mp hr).1
      rw [show y + 1 + r = y + (r + 1) by omega] at hl'
      have := lands_row_inj (r := 0) (by omega) (by omega) hl hl'
      omega
    have hd : drawRows e x0 y (row :: rows) g = drawRows e x0 (y + 1) rows (drawCols e x0 y row 8 g) := rfl
    rw [hd]
    constructor
    · intro x' y' hx hy
      rw [hcons]
      by_cases h1 : RowHits e x0 y row 8 x' y'
      · have h2 : ¬RowsHit e x0 (y + 1) rows x' y' := hdisj x' y' h1
        rw [(ihc x' y' hx hy).2 h2, (hc x' y' hx hy).1 h1]
        exact ⟨fun _ => rfl, fun h => absurd (.inl h1) h⟩
      · refine ⟨fun h => ?_, fun h => ?_⟩
        · rcases h with h | h
          · exact absurd h h1
          · rw [(ihc x' y' hx hy).1 h, (hc x' y' hx hy).2 h1]
        · rw [(ihc x' y' hx hy).2 (fun h' => h (.inr h')), (hc x' y' hx hy).2 h1]
    · rw [ihf, hf]
      constructor
      · rintro ((h | ⟨x', y', h, hcell⟩) | ⟨x', y', h, hcell⟩)
        · exact .inl h
        · exact .inr ⟨x', y', (hcons x' y').mpr (.inl h), hcell⟩
        · have h1 : ¬RowHits e x0 y row 8 x' y' := fun h' => hdisj x' y' h' h
          have hlt : x' < 64 ∧ y' < 32 := by
            obtain ⟨_, _, _, _, _, _, hl⟩ := h; exact lands_lt hl
          rw [(hc x' y' hlt.1 hlt.2).2 h1] at hcell
          exact .inr ⟨x', y', (hcons x' y').mpr (.inr h), hcell⟩
      · rintro (h | ⟨x', y', h, hcell⟩)
        · exact .inl (.inl h)
        · rcases (hcons x' y').mp h with h | h
          · exact .inl (.inr ⟨x', y', h, hcell⟩)
          · have h1 : ¬RowHits e x0 y row 8 x' y' := fun h' => hdisj x' y' h' h
            have hlt : x' < 64 ∧ y' < 32 := by
              obtain ⟨_, _, _, _, _, _, hl⟩ := h; exact lands_lt hl
            exact .inr ⟨x', y', h, by rw [(hc x' y' hlt.1 hlt.2).2 h1]; exact hcell⟩

end Sys2Proof.Machine
end

