-- ==== Sys2Proof/Laws/Encoding.lean ====
section
/-! SUPPORT. The fields of the four shapes of word the encoder writes (30_encoding.md R71, R73): each field reads back the
operand that was put there. -/

namespace Sys2Proof

theorem toNat_append_of {m n : Nat} (a : BitVec m) (b : BitVec n) : (a ++ b).toNat = a.toNat * 2 ^ n + b.toNat := by
  rw [BitVec.toNat_append, ← Nat.shiftLeft_add_eq_or_of_lt b.isLt, Nat.shiftLeft_eq]

/-- n3 and NNN. -/
theorem toNat_word_addr (a : Nibble) (n : Addr) : BitVec.toNat (w := 16) (a ++ n) = a.toNat * 4096 + n.toNat :=
  toNat_append_of a n

/-- n3, X and NN. -/
theorem toNat_word_imm (a x : Nibble) (nn : Byte) :
    BitVec.toNat (w := 16) (a ++ x ++ nn) = a.toNat * 4096 + x.toNat * 256 + nn.toNat := by
  have h := toNat_append_of (a ++ x) nn
  rw [toNat_append_of a x] at h
  exact h.trans (by omega)

/-- n3, the bits table T0 ignores, and n0. -/
theorem toNat_word_t0 (a : Nibble) (z : Byte) (k : Nibble) :
    BitVec.toNat (w := 16) (a ++ z ++ k) = a.toNat * 4096 + z.toNat * 16 + k.toNat := by
  have h := toNat_append_of (a ++ z) k
  rw [toNat_append_of a z] at h
  exact h.trans (by omega)

/-- n3, X, Y and n0. -/
theorem toNat_word_regs (a x y k : Nibble) :
    BitVec.toNat (w := 16) (a ++ x ++ y ++ k) = a.toNat * 4096 + x.toNat * 256 + y.toNat * 16 + k.toNat := by
  have h := toNat_append_of (a ++ x ++ y) k
  rw [toNat_append_of (a ++ x) y, toNat_append_of a x] at h
  exact h.trans (by omega)

theorem fieldN3_toNat (w : Word) : (fieldN3 w).toNat = w.toNat / 4096 % 16 := by
  simp [fieldN3, BitVec.extractLsb'_toNat, Nat.shiftRight_eq_div_pow]
theorem fieldX_toNat (w : Word) : (fieldX w).toNat = w.toNat / 256 % 16 := by
  simp [fieldX, BitVec.extractLsb'_toNat, Nat.shiftRight_eq_div_pow]
theorem fieldY_toNat (w : Word) : (fieldY w).toNat = w.toNat / 16 % 16 := by
  simp [fieldY, BitVec.extractLsb'_toNat, Nat.shiftRight_eq_div_pow]
theorem fieldN_toNat (w : Word) : (fieldN w).toNat = w.toNat % 16 := by
  simp [fieldN, BitVec.extractLsb'_toNat]
theorem fieldNN_toNat (w : Word) : (fieldNN w).toNat = w.toNat % 256 := by
  simp [fieldNN, BitVec.extractLsb'_toNat]
theorem fieldNNN_toNat (w : Word) : (fieldNNN w).toNat = w.toNat % 4096 := by
  simp [fieldNNN, BitVec.extractLsb'_toNat]
theorem fieldT0Ign_toNat (w : Word) : (fieldT0Ign w).toNat = w.toNat / 16 % 256 := by
  simp [fieldT0Ign, BitVec.extractLsb'_toNat, Nat.shiftRight_eq_div_pow]

section
variable (a x y k : Nibble) (z nn : Byte) (n : Addr)

@[simp] theorem fieldN3_addr : fieldN3 (a ++ n) = a := by
  apply BitVec.eq_of_toNat_eq; rw [fieldN3_toNat, toNat_word_addr]; omega
@[simp] theorem fieldNNN_addr : fieldNNN (a ++ n) = n := by
  apply BitVec.eq_of_toNat_eq; rw [fieldNNN_toNat, toNat_word_addr]; omega
theorem fieldN_addr_toNat : (fieldN (a ++ n)).toNat = n.toNat % 16 := by
  rw [fieldN_toNat, toNat_word_addr]; omega

@[simp] theorem fieldN3_imm : fieldN3 (a ++ x ++ nn) = a := by
  apply BitVec.eq_of_toNat_eq; rw [fieldN3_toNat, toNat_word_imm]; omega
@[simp] theorem fieldX_imm : fieldX (a ++ x ++ nn) = x := by
  apply BitVec.eq_of_toNat_eq; rw [fieldX_toNat, toNat_word_imm]; omega
@[simp] theorem fieldNN_imm : fieldNN (a ++ x ++ nn) = nn := by
  apply BitVec.eq_of_toNat_eq; rw [fieldNN_toNat, toNat_word_imm]; omega
theorem fieldN_imm_toNat : (fieldN (a ++ x ++ nn)).toNat = nn.toNat % 16 := by
  rw [fieldN_toNat, toNat_word_imm]; omega
theorem fieldY_imm_toNat : (fieldY (a ++ x ++ nn)).toNat = nn.toNat / 16 := by
  rw [fieldY_toNat, toNat_word_imm]; omega

@[simp] theorem fieldN3_t0 : fieldN3 (a ++ z ++ k) = a := by
  apply BitVec.eq_of_toNat_eq; rw [fieldN3_toNat, toNat_word_t0]; omega
@[simp] theorem fieldN_t0 : fieldN (a ++ z ++ k) = k := by
  apply BitVec.eq_of_toNat_eq; rw [fieldN_toNat, toNat_word_t0]; omega
@[simp] theorem fieldT0Ign_t0 : fieldT0Ign (a ++ z ++ k) = z := by
  apply BitVec.eq_of_toNat_eq; rw [fieldT0Ign_toNat, toNat_word_t0]; omega

@[simp] theorem fieldN3_regs : fieldN3 (a ++ x ++ y ++ k) = a := by
  apply BitVec.eq_of_toNat_eq; rw [fieldN3_toNat, toNat_word_regs]; omega
@[simp] theorem fieldX_regs : fieldX (a ++ x ++ y ++ k) = x := by
  apply BitVec.eq_of_toNat_eq; rw [fieldX_toNat, toNat_word_regs]; omega
@[simp] theorem fieldY_regs : fieldY (a ++ x ++ y ++ k) = y := by
  apply BitVec.eq_of_toNat_eq; rw [fieldY_toNat, toNat_word_regs]; omega
@[simp] theorem fieldN_regs : fieldN (a ++ x ++ y ++ k) = k := by
  apply BitVec.eq_of_toNat_eq; rw [fieldN_toNat, toNat_word_regs]; omega

end

/-- The two bytes of a word, put together again, are the word (R54). -/
theorem wordOfBytes_bytes (w : Word) : wordOfBytes (highByte w) (lowByte w) = w := by
  apply BitVec.eq_of_toNat_eq
  have h := toNat_append_of (highByte w) (lowByte w)
  have h1 : (highByte w).toNat = w.toNat / 256 % 256 := by
    simp [highByte, BitVec.extractLsb'_toNat, Nat.shiftRight_eq_div_pow]
  have h2 : (lowByte w).toNat = w.toNat % 256 := by simp [lowByte, BitVec.extractLsb'_toNat]
  have := w.isLt
  exact h.trans (by omega)

/-- Decoding a word's two bytes is decoding the word, and the bytes after them are left (R54, R70). -/
theorem decodeBytes_word (w : Word) (rest : List Byte) :
    decodeBytes (highByte w :: lowByte w :: rest) = (decode w, rest) := by
  simp [decodeBytes, wordOfBytes_bytes]

end Sys2Proof
end

