-- ==== Sys2Proof/Laws/State.lean ====
section
/-! SUPPORT. One lemma per field per update of the state, each true by `rfl`, so that no later proof unfolds a record
update. -/

namespace Sys2Proof.Machine

/-! ### setReg -/

@[simp] theorem setReg_v (s : State) (x : Nibble) (b : Byte) : (s.setReg x b).v = s.v.set x.toNat b x.isLt := rfl
@[simp] theorem setReg_pc (s : State) (x : Nibble) (b : Byte) : (s.setReg x b).pc = s.pc := rfl
@[simp] theorem setReg_i (s : State) (x : Nibble) (b : Byte) : (s.setReg x b).i = s.i := rfl
@[simp] theorem setReg_stack (s : State) (x : Nibble) (b : Byte) : (s.setReg x b).stack = s.stack := rfl
@[simp] theorem setReg_sp (s : State) (x : Nibble) (b : Byte) : (s.setReg x b).sp = s.sp := rfl
@[simp] theorem setReg_dt (s : State) (x : Nibble) (b : Byte) : (s.setReg x b).dt = s.dt := rfl
@[simp] theorem setReg_st (s : State) (x : Nibble) (b : Byte) : (s.setReg x b).st = s.st := rfl
@[simp] theorem setReg_mem (s : State) (x : Nibble) (b : Byte) : (s.setReg x b).mem = s.mem := rfl
@[simp] theorem setReg_disp (s : State) (x : Nibble) (b : Byte) : (s.setReg x b).disp = s.disp := rfl
@[simp] theorem setReg_dirty (s : State) (x : Nibble) (b : Byte) : (s.setReg x b).dirty = s.dirty := rfl
@[simp] theorem setReg_keys (s : State) (x : Nibble) (b : Byte) : (s.setReg x b).keys = s.keys := rfl
@[simp] theorem setReg_halted (s : State) (x : Nibble) (b : Byte) : (s.setReg x b).halted = s.halted := rfl
@[simp] theorem setReg_fault (s : State) (x : Nibble) (b : Byte) : (s.setReg x b).fault = s.fault := rfl
@[simp] theorem setReg_loaded (s : State) (x : Nibble) (b : Byte) : (s.setReg x b).loaded = s.loaded := rfl
@[simp] theorem setReg_beep (s : State) (x : Nibble) (b : Byte) : (s.setReg x b).beep = s.beep := rfl
@[simp] theorem setReg_diag (s : State) (x : Nibble) (b : Byte) : (s.setReg x b).diag = s.diag := rfl
@[simp] theorem setReg_params (s : State) (x : Nibble) (b : Byte) : (s.setReg x b).params = s.params := rfl
@[simp] theorem setReg_rndIn (s : State) (x : Nibble) (b : Byte) : (s.setReg x b).rndIn = s.rndIn := rfl
@[simp] theorem setReg_draws (s : State) (x : Nibble) (b : Byte) : (s.setReg x b).draws = s.draws := rfl

/-! ### setFlag -/

@[simp] theorem setFlag_v (s : State) (f : Byte) : (s.setFlag f).v = s.v.set VF.toNat f VF.isLt := rfl
@[simp] theorem setFlag_pc (s : State) (f : Byte) : (s.setFlag f).pc = s.pc := rfl
@[simp] theorem setFlag_i (s : State) (f : Byte) : (s.setFlag f).i = s.i := rfl
@[simp] theorem setFlag_stack (s : State) (f : Byte) : (s.setFlag f).stack = s.stack := rfl
@[simp] theorem setFlag_sp (s : State) (f : Byte) : (s.setFlag f).sp = s.sp := rfl
@[simp] theorem setFlag_dt (s : State) (f : Byte) : (s.setFlag f).dt = s.dt := rfl
@[simp] theorem setFlag_st (s : State) (f : Byte) : (s.setFlag f).st = s.st := rfl
@[simp] theorem setFlag_mem (s : State) (f : Byte) : (s.setFlag f).mem = s.mem := rfl
@[simp] theorem setFlag_disp (s : State) (f : Byte) : (s.setFlag f).disp = s.disp := rfl
@[simp] theorem setFlag_dirty (s : State) (f : Byte) : (s.setFlag f).dirty = s.dirty := rfl
@[simp] theorem setFlag_keys (s : State) (f : Byte) : (s.setFlag f).keys = s.keys := rfl
@[simp] theorem setFlag_halted (s : State) (f : Byte) : (s.setFlag f).halted = s.halted := rfl
@[simp] theorem setFlag_fault (s : State) (f : Byte) : (s.setFlag f).fault = s.fault := rfl
@[simp] theorem setFlag_loaded (s : State) (f : Byte) : (s.setFlag f).loaded = s.loaded := rfl
@[simp] theorem setFlag_beep (s : State) (f : Byte) : (s.setFlag f).beep = s.beep := rfl
@[simp] theorem setFlag_diag (s : State) (f : Byte) : (s.setFlag f).diag = s.diag := rfl
@[simp] theorem setFlag_params (s : State) (f : Byte) : (s.setFlag f).params = s.params := rfl
@[simp] theorem setFlag_rndIn (s : State) (f : Byte) : (s.setFlag f).rndIn = s.rndIn := rfl
@[simp] theorem setFlag_draws (s : State) (f : Byte) : (s.setFlag f).draws = s.draws := rfl

/-! ### setFlagReg -/

@[simp] theorem setFlagReg_v (s : State) (x : Nibble) (f b : Byte) : (s.setFlagReg x f b).v = (s.v.set VF.toNat f VF.isLt).set x.toNat b x.isLt := rfl
@[simp] theorem setFlagReg_pc (s : State) (x : Nibble) (f b : Byte) : (s.setFlagReg x f b).pc = s.pc := rfl
@[simp] theorem setFlagReg_i (s : State) (x : Nibble) (f b : Byte) : (s.setFlagReg x f b).i = s.i := rfl
@[simp] theorem setFlagReg_stack (s : State) (x : Nibble) (f b : Byte) : (s.setFlagReg x f b).stack = s.stack := rfl
@[simp] theorem setFlagReg_sp (s : State) (x : Nibble) (f b : Byte) : (s.setFlagReg x f b).sp = s.sp := rfl
@[simp] theorem setFlagReg_dt (s : State) (x : Nibble) (f b : Byte) : (s.setFlagReg x f b).dt = s.dt := rfl
@[simp] theorem setFlagReg_st (s : State) (x : Nibble) (f b : Byte) : (s.setFlagReg x f b).st = s.st := rfl
@[simp] theorem setFlagReg_mem (s : State) (x : Nibble) (f b : Byte) : (s.setFlagReg x f b).mem = s.mem := rfl
@[simp] theorem setFlagReg_disp (s : State) (x : Nibble) (f b : Byte) : (s.setFlagReg x f b).disp = s.disp := rfl
@[simp] theorem setFlagReg_dirty (s : State) (x : Nibble) (f b : Byte) : (s.setFlagReg x f b).dirty = s.dirty := rfl
@[simp] theorem setFlagReg_keys (s : State) (x : Nibble) (f b : Byte) : (s.setFlagReg x f b).keys = s.keys := rfl
@[simp] theorem setFlagReg_halted (s : State) (x : Nibble) (f b : Byte) : (s.setFlagReg x f b).halted = s.halted := rfl
@[simp] theorem setFlagReg_fault (s : State) (x : Nibble) (f b : Byte) : (s.setFlagReg x f b).fault = s.fault := rfl
@[simp] theorem setFlagReg_loaded (s : State) (x : Nibble) (f b : Byte) : (s.setFlagReg x f b).loaded = s.loaded := rfl
@[simp] theorem setFlagReg_beep (s : State) (x : Nibble) (f b : Byte) : (s.setFlagReg x f b).beep = s.beep := rfl
@[simp] theorem setFlagReg_diag (s : State) (x : Nibble) (f b : Byte) : (s.setFlagReg x f b).diag = s.diag := rfl
@[simp] theorem setFlagReg_params (s : State) (x : Nibble) (f b : Byte) : (s.setFlagReg x f b).params = s.params := rfl
@[simp] theorem setFlagReg_rndIn (s : State) (x : Nibble) (f b : Byte) : (s.setFlagReg x f b).rndIn = s.rndIn := rfl
@[simp] theorem setFlagReg_draws (s : State) (x : Nibble) (f b : Byte) : (s.setFlagReg x f b).draws = s.draws := rfl

/-! ### setIndex -/

@[simp] theorem setIndex_v (s : State) (w : Word) : (s.setIndex w).v = s.v := rfl
@[simp] theorem setIndex_pc (s : State) (w : Word) : (s.setIndex w).pc = s.pc := rfl
@[simp] theorem setIndex_i (s : State) (w : Word) : (s.setIndex w).i = w := rfl
@[simp] theorem setIndex_stack (s : State) (w : Word) : (s.setIndex w).stack = s.stack := rfl
@[simp] theorem setIndex_sp (s : State) (w : Word) : (s.setIndex w).sp = s.sp := rfl
@[simp] theorem setIndex_dt (s : State) (w : Word) : (s.setIndex w).dt = s.dt := rfl
@[simp] theorem setIndex_st (s : State) (w : Word) : (s.setIndex w).st = s.st := rfl
@[simp] theorem setIndex_mem (s : State) (w : Word) : (s.setIndex w).mem = s.mem := rfl
@[simp] theorem setIndex_disp (s : State) (w : Word) : (s.setIndex w).disp = s.disp := rfl
@[simp] theorem setIndex_dirty (s : State) (w : Word) : (s.setIndex w).dirty = s.dirty := rfl
@[simp] theorem setIndex_keys (s : State) (w : Word) : (s.setIndex w).keys = s.keys := rfl
@[simp] theorem setIndex_halted (s : State) (w : Word) : (s.setIndex w).halted = s.halted := rfl
@[simp] theorem setIndex_fault (s : State) (w : Word) : (s.setIndex w).fault = s.fault := rfl
@[simp] theorem setIndex_loaded (s : State) (w : Word) : (s.setIndex w).loaded = s.loaded := rfl
@[simp] theorem setIndex_beep (s : State) (w : Word) : (s.setIndex w).beep = s.beep := rfl
@[simp] theorem setIndex_diag (s : State) (w : Word) : (s.setIndex w).diag = s.diag := rfl
@[simp] theorem setIndex_params (s : State) (w : Word) : (s.setIndex w).params = s.params := rfl
@[simp] theorem setIndex_rndIn (s : State) (w : Word) : (s.setIndex w).rndIn = s.rndIn := rfl
@[simp] theorem setIndex_draws (s : State) (w : Word) : (s.setIndex w).draws = s.draws := rfl

/-! ### advanceIndex -/

@[simp] theorem advanceIndex_v (s : State) (n : Nat) : (s.advanceIndex n).v = s.v := rfl
@[simp] theorem advanceIndex_pc (s : State) (n : Nat) : (s.advanceIndex n).pc = s.pc := rfl
@[simp] theorem advanceIndex_i (s : State) (n : Nat) : (s.advanceIndex n).i = BitVec.ofNat 16 (s.i.toNat + n) := rfl
@[simp] theorem advanceIndex_stack (s : State) (n : Nat) : (s.advanceIndex n).stack = s.stack := rfl
@[simp] theorem advanceIndex_sp (s : State) (n : Nat) : (s.advanceIndex n).sp = s.sp := rfl
@[simp] theorem advanceIndex_dt (s : State) (n : Nat) : (s.advanceIndex n).dt = s.dt := rfl
@[simp] theorem advanceIndex_st (s : State) (n : Nat) : (s.advanceIndex n).st = s.st := rfl
@[simp] theorem advanceIndex_mem (s : State) (n : Nat) : (s.advanceIndex n).mem = s.mem := rfl
@[simp] theorem advanceIndex_disp (s : State) (n : Nat) : (s.advanceIndex n).disp = s.disp := rfl
@[simp] theorem advanceIndex_dirty (s : State) (n : Nat) : (s.advanceIndex n).dirty = s.dirty := rfl
@[simp] theorem advanceIndex_keys (s : State) (n : Nat) : (s.advanceIndex n).keys = s.keys := rfl
@[simp] theorem advanceIndex_halted (s : State) (n : Nat) : (s.advanceIndex n).halted = s.halted := rfl
@[simp] theorem advanceIndex_fault (s : State) (n : Nat) : (s.advanceIndex n).fault = s.fault := rfl
@[simp] theorem advanceIndex_loaded (s : State) (n : Nat) : (s.advanceIndex n).loaded = s.loaded := rfl
@[simp] theorem advanceIndex_beep (s : State) (n : Nat) : (s.advanceIndex n).beep = s.beep := rfl
@[simp] theorem advanceIndex_diag (s : State) (n : Nat) : (s.advanceIndex n).diag = s.diag := rfl
@[simp] theorem advanceIndex_params (s : State) (n : Nat) : (s.advanceIndex n).params = s.params := rfl
@[simp] theorem advanceIndex_rndIn (s : State) (n : Nat) : (s.advanceIndex n).rndIn = s.rndIn := rfl
@[simp] theorem advanceIndex_draws (s : State) (n : Nat) : (s.advanceIndex n).draws = s.draws := rfl

/-! ### storeBytes -/

@[simp] theorem storeBytes_v (s : State) (a : Nat) (xs : List Byte) : (s.storeBytes a xs).v = s.v := rfl
@[simp] theorem storeBytes_pc (s : State) (a : Nat) (xs : List Byte) : (s.storeBytes a xs).pc = s.pc := rfl
@[simp] theorem storeBytes_i (s : State) (a : Nat) (xs : List Byte) : (s.storeBytes a xs).i = s.i := rfl
@[simp] theorem storeBytes_stack (s : State) (a : Nat) (xs : List Byte) : (s.storeBytes a xs).stack = s.stack := rfl
@[simp] theorem storeBytes_sp (s : State) (a : Nat) (xs : List Byte) : (s.storeBytes a xs).sp = s.sp := rfl
@[simp] theorem storeBytes_dt (s : State) (a : Nat) (xs : List Byte) : (s.storeBytes a xs).dt = s.dt := rfl
@[simp] theorem storeBytes_st (s : State) (a : Nat) (xs : List Byte) : (s.storeBytes a xs).st = s.st := rfl
@[simp] theorem storeBytes_mem (s : State) (a : Nat) (xs : List Byte) : (s.storeBytes a xs).mem = Memory.writeBytes s.mem a xs := rfl
@[simp] theorem storeBytes_disp (s : State) (a : Nat) (xs : List Byte) : (s.storeBytes a xs).disp = s.disp := rfl
@[simp] theorem storeBytes_dirty (s : State) (a : Nat) (xs : List Byte) : (s.storeBytes a xs).dirty = s.dirty := rfl
@[simp] theorem storeBytes_keys (s : State) (a : Nat) (xs : List Byte) : (s.storeBytes a xs).keys = s.keys := rfl
@[simp] theorem storeBytes_halted (s : State) (a : Nat) (xs : List Byte) : (s.storeBytes a xs).halted = s.halted := rfl
@[simp] theorem storeBytes_fault (s : State) (a : Nat) (xs : List Byte) : (s.storeBytes a xs).fault = s.fault := rfl
@[simp] theorem storeBytes_loaded (s : State) (a : Nat) (xs : List Byte) : (s.storeBytes a xs).loaded = s.loaded := rfl
@[simp] theorem storeBytes_beep (s : State) (a : Nat) (xs : List Byte) : (s.storeBytes a xs).beep = s.beep := rfl
@[simp] theorem storeBytes_diag (s : State) (a : Nat) (xs : List Byte) : (s.storeBytes a xs).diag = s.diag := rfl
@[simp] theorem storeBytes_params (s : State) (a : Nat) (xs : List Byte) : (s.storeBytes a xs).params = s.params := rfl
@[simp] theorem storeBytes_rndIn (s : State) (a : Nat) (xs : List Byte) : (s.storeBytes a xs).rndIn = s.rndIn := rfl
@[simp] theorem storeBytes_draws (s : State) (a : Nat) (xs : List Byte) : (s.storeBytes a xs).draws = s.draws := rfl

/-! ### storeBlock -/

@[simp] theorem storeBlock_v (s : State) (xs : List Byte) : (s.storeBlock xs).v = s.v := rfl
@[simp] theorem storeBlock_pc (s : State) (xs : List Byte) : (s.storeBlock xs).pc = s.pc := rfl
@[simp] theorem storeBlock_i (s : State) (xs : List Byte) : (s.storeBlock xs).i = s.i := rfl
@[simp] theorem storeBlock_stack (s : State) (xs : List Byte) : (s.storeBlock xs).stack = s.stack := rfl
@[simp] theorem storeBlock_sp (s : State) (xs : List Byte) : (s.storeBlock xs).sp = s.sp := rfl
@[simp] theorem storeBlock_dt (s : State) (xs : List Byte) : (s.storeBlock xs).dt = s.dt := rfl
@[simp] theorem storeBlock_st (s : State) (xs : List Byte) : (s.storeBlock xs).st = s.st := rfl
@[simp] theorem storeBlock_mem (s : State) (xs : List Byte) : (s.storeBlock xs).mem = Memory.writeBytes s.mem s.i.toNat xs := rfl
@[simp] theorem storeBlock_disp (s : State) (xs : List Byte) : (s.storeBlock xs).disp = s.disp := rfl
@[simp] theorem storeBlock_dirty (s : State) (xs : List Byte) : (s.storeBlock xs).dirty = s.dirty := rfl
@[simp] theorem storeBlock_keys (s : State) (xs : List Byte) : (s.storeBlock xs).keys = s.keys := rfl
@[simp] theorem storeBlock_halted (s : State) (xs : List Byte) : (s.storeBlock xs).halted = s.halted := rfl
@[simp] theorem storeBlock_fault (s : State) (xs : List Byte) : (s.storeBlock xs).fault = s.fault := rfl
@[simp] theorem storeBlock_loaded (s : State) (xs : List Byte) : (s.storeBlock xs).loaded = s.loaded := rfl
@[simp] theorem storeBlock_beep (s : State) (xs : List Byte) : (s.storeBlock xs).beep = s.beep := rfl
@[simp] theorem storeBlock_diag (s : State) (xs : List Byte) : (s.storeBlock xs).diag = s.diag := rfl
@[simp] theorem storeBlock_params (s : State) (xs : List Byte) : (s.storeBlock xs).params = s.params := rfl
@[simp] theorem storeBlock_rndIn (s : State) (xs : List Byte) : (s.storeBlock xs).rndIn = s.rndIn := rfl
@[simp] theorem storeBlock_draws (s : State) (xs : List Byte) : (s.storeBlock xs).draws = s.draws := rfl

/-! ### endStep -/

@[simp] theorem endStep_v (s : State) (adv : Advance) (d : Option Diag) : (endStep adv d s).v = s.v := rfl
@[simp] theorem endStep_pc (s : State) (adv : Advance) (d : Option Diag) : (endStep adv d s).pc = nextPc s.pc adv := rfl
@[simp] theorem endStep_i (s : State) (adv : Advance) (d : Option Diag) : (endStep adv d s).i = s.i := rfl
@[simp] theorem endStep_stack (s : State) (adv : Advance) (d : Option Diag) : (endStep adv d s).stack = s.stack := rfl
@[simp] theorem endStep_sp (s : State) (adv : Advance) (d : Option Diag) : (endStep adv d s).sp = s.sp := rfl
@[simp] theorem endStep_dt (s : State) (adv : Advance) (d : Option Diag) : (endStep adv d s).dt = tick s.dt := rfl
@[simp] theorem endStep_st (s : State) (adv : Advance) (d : Option Diag) : (endStep adv d s).st = tick s.st := rfl
@[simp] theorem endStep_mem (s : State) (adv : Advance) (d : Option Diag) : (endStep adv d s).mem = s.mem := rfl
@[simp] theorem endStep_disp (s : State) (adv : Advance) (d : Option Diag) : (endStep adv d s).disp = s.disp := rfl
@[simp] theorem endStep_dirty (s : State) (adv : Advance) (d : Option Diag) : (endStep adv d s).dirty = s.dirty := rfl
@[simp] theorem endStep_keys (s : State) (adv : Advance) (d : Option Diag) : (endStep adv d s).keys = s.keys := rfl
@[simp] theorem endStep_halted (s : State) (adv : Advance) (d : Option Diag) : (endStep adv d s).halted = s.halted := rfl
@[simp] theorem endStep_fault (s : State) (adv : Advance) (d : Option Diag) : (endStep adv d s).fault = s.fault := rfl
@[simp] theorem endStep_loaded (s : State) (adv : Advance) (d : Option Diag) : (endStep adv d s).loaded = s.loaded := rfl
@[simp] theorem endStep_beep (s : State) (adv : Advance) (d : Option Diag) : (endStep adv d s).beep = beeps s.st := rfl
@[simp] theorem endStep_diag (s : State) (adv : Advance) (d : Option Diag) : (endStep adv d s).diag = d := rfl
@[simp] theorem endStep_params (s : State) (adv : Advance) (d : Option Diag) : (endStep adv d s).params = s.params := rfl
@[simp] theorem endStep_rndIn (s : State) (adv : Advance) (d : Option Diag) : (endStep adv d s).rndIn = none := rfl
@[simp] theorem endStep_draws (s : State) (adv : Advance) (d : Option Diag) : (endStep adv d s).draws = s.draws + 1 := rfl

/-! ### setRegs: every field but v, by induction on the bytes -/

@[simp] theorem setRegs_pc (s : State) (k : Nat) (bs : List Byte) : (s.setRegs k bs).pc = s.pc := by
  induction bs generalizing s k with
  | nil => rfl
  | cons b bs ih => exact (ih _ _).trans rfl
@[simp] theorem setRegs_i (s : State) (k : Nat) (bs : List Byte) : (s.setRegs k bs).i = s.i := by
  induction bs generalizing s k with
  | nil => rfl
  | cons b bs ih => exact (ih _ _).trans rfl
@[simp] theorem setRegs_stack (s : State) (k : Nat) (bs : List Byte) : (s.setRegs k bs).stack = s.stack := by
  induction bs generalizing s k with
  | nil => rfl
  | cons b bs ih => exact (ih _ _).trans rfl
@[simp] theorem setRegs_sp (s : State) (k : Nat) (bs : List Byte) : (s.setRegs k bs).sp = s.sp := by
  induction bs generalizing s k with
  | nil => rfl
  | cons b bs ih => exact (ih _ _).trans rfl
@[simp] theorem setRegs_dt (s : State) (k : Nat) (bs : List Byte) : (s.setRegs k bs).dt = s.dt := by
  induction bs generalizing s k with
  | nil => rfl
  | cons b bs ih => exact (ih _ _).trans rfl
@[simp] theorem setRegs_st (s : State) (k : Nat) (bs : List Byte) : (s.setRegs k bs).st = s.st := by
  induction bs generalizing s k with
  | nil => rfl
  | cons b bs ih => exact (ih _ _).trans rfl
@[simp] theorem setRegs_mem (s : State) (k : Nat) (bs : List Byte) : (s.setRegs k bs).mem = s.mem := by
  induction bs generalizing s k with
  | nil => rfl
  | cons b bs ih => exact (ih _ _).trans rfl
@[simp] theorem setRegs_disp (s : State) (k : Nat) (bs : List Byte) : (s.setRegs k bs).disp = s.disp := by
  induction bs generalizing s k with
  | nil => rfl
  | cons b bs ih => exact (ih _ _).trans rfl
@[simp] theorem setRegs_dirty (s : State) (k : Nat) (bs : List Byte) : (s.setRegs k bs).dirty = s.dirty := by
  induction bs generalizing s k with
  | nil => rfl
  | cons b bs ih => exact (ih _ _).trans rfl
@[simp] theorem setRegs_keys (s : State) (k : Nat) (bs : List Byte) : (s.setRegs k bs).keys = s.keys := by
  induction bs generalizing s k with
  | nil => rfl
  | cons b bs ih => exact (ih _ _).trans rfl
@[simp] theorem setRegs_halted (s : State) (k : Nat) (bs : List Byte) : (s.setRegs k bs).halted = s.halted := by
  induction bs generalizing s k with
  | nil => rfl
  | cons b bs ih => exact (ih _ _).trans rfl
@[simp] theorem setRegs_fault (s : State) (k : Nat) (bs : List Byte) : (s.setRegs k bs).fault = s.fault := by
  induction bs generalizing s k with
  | nil => rfl
  | cons b bs ih => exact (ih _ _).trans rfl
@[simp] theorem setRegs_loaded (s : State) (k : Nat) (bs : List Byte) : (s.setRegs k bs).loaded = s.loaded := by
  induction bs generalizing s k with
  | nil => rfl
  | cons b bs ih => exact (ih _ _).trans rfl
@[simp] theorem setRegs_beep (s : State) (k : Nat) (bs : List Byte) : (s.setRegs k bs).beep = s.beep := by
  induction bs generalizing s k with
  | nil => rfl
  | cons b bs ih => exact (ih _ _).trans rfl
@[simp] theorem setRegs_diag (s : State) (k : Nat) (bs : List Byte) : (s.setRegs k bs).diag = s.diag := by
  induction bs generalizing s k with
  | nil => rfl
  | cons b bs ih => exact (ih _ _).trans rfl
@[simp] theorem setRegs_params (s : State) (k : Nat) (bs : List Byte) : (s.setRegs k bs).params = s.params := by
  induction bs generalizing s k with
  | nil => rfl
  | cons b bs ih => exact (ih _ _).trans rfl
@[simp] theorem setRegs_rndIn (s : State) (k : Nat) (bs : List Byte) : (s.setRegs k bs).rndIn = s.rndIn := by
  induction bs generalizing s k with
  | nil => rfl
  | cons b bs ih => exact (ih _ _).trans rfl
@[simp] theorem setRegs_draws (s : State) (k : Nat) (bs : List Byte) : (s.setRegs k bs).draws = s.draws := by
  induction bs generalizing s k with
  | nil => rfl
  | cons b bs ih => exact (ih _ _).trans rfl

end Sys2Proof.Machine
end

