-- ==== Sys2Proof/Laws/Memory.lean ====
section
/-! SUPPORT. Read after write, and the canonical form kept by every memory operation (20_memory.md R50 to R61). -/

namespace Sys2Proof.Machine

/-- An address below every listed one reads as the construction contents. -/
theorem read_of_forall_lt (m : List Host.Cell) (d : Nat) (h : ∀ e ∈ m, d < e.1) : Memory.read m d = initByte d := by
  induction m with
  | nil => rfl
  | cons e m ih =>
    have h1 : d ≠ e.1 := by have := h e (by simp); omega
    simp only [Memory.read, h1, if_false]
    exact ih (fun e he => h e (by simp [he]))

theorem read_write (m : List Host.Cell) (a b : Nat) (x : Byte) (h : m.Pairwise (fun c d => c.1 < d.1)) :
    Memory.read (Memory.write m a x) b = if b = a then x else Memory.read m b := by
  induction m with
  | nil =>
    by_cases hx : x = initByte a
    · by_cases hb : b = a <;> simp [Memory.write, Memory.read, hx, hb]
    · by_cases hb : b = a <;> simp [Memory.write, Memory.read, hx, hb]
  | cons c m ih =>
    obtain ⟨c1, c2⟩ := c
    have hlt : ∀ d ∈ m, c1 < d.1 := (List.pairwise_cons.mp h).1
    have ih := ih (List.pairwise_cons.mp h).2
    simp only [Memory.write]
    by_cases h1 : a < c1
    · have hra : Memory.read m a = initByte a := read_of_forall_lt m a (fun e he => by have := hlt e he; omega)
      have hac : a ≠ c1 := by omega
      by_cases hx : x = initByte a
      · simp only [h1, hx, if_true, Memory.read]
        by_cases hb : b = a
        · subst hb; simp [hac, hra]
        · simp [hb]
      · simp only [h1, hx, if_true, if_false, Memory.read]
    · by_cases h2 : a = c1
      · subst h2
        have hra : Memory.read m a = initByte a := read_of_forall_lt m a hlt
        by_cases hx : x = initByte a
        · simp only [h1, hx, if_true, if_false, Memory.read]
          by_cases hb : b = a
          · subst hb; simp [hra]
          · simp [hb]
        · simp only [h1, hx, if_true, if_false, Memory.read]
          by_cases hb : b = a <;> simp [hb]
      · simp only [h1, h2, if_false, Memory.read, ih]
        by_cases hb : b = a
        · subst hb; simp [h2]
        · simp [hb]

/-- A store leaves every other address alone, whatever the list looks like. -/
theorem read_write_of_ne (m : List Host.Cell) {a b : Nat} (x : Byte) (h : b ≠ a) :
    Memory.read (Memory.write m a x) b = Memory.read m b := by
  induction m with
  | nil => by_cases hx : x = initByte a <;> simp [Memory.write, Memory.read, hx, h]
  | cons c m ih =>
    obtain ⟨c1, c2⟩ := c
    simp only [Memory.write]
    split
    · split <;> simp [Memory.read, h]
    · split
      · subst_vars
        split <;> simp [Memory.read, h]
      · simp [Memory.read, ih]

/-- A run of stores leaves every address outside it alone. -/
theorem read_writeBytes_outside (xs : List Byte) : ∀ (m : List Host.Cell) (a b : Nat), ¬(a ≤ b ∧ b < a + xs.length) →
    Memory.read (Memory.writeBytes m a xs) b = Memory.read m b := by
  induction xs with
  | nil => intro m a b _; rfl
  | cons x xs ih =>
    intro m a b h
    simp only [List.length_cons] at h
    exact (ih (Memory.write m a x) (a + 1) b (by omega)).trans (read_write_of_ne m x (by omega))

theorem mem_write (m : List Host.Cell) (a : Nat) (x : Byte) (c : Host.Cell) (h : c ∈ Memory.write m a x) :
    c ∈ m ∨ (c = (a, x) ∧ x ≠ initByte a) := by
  induction m with
  | nil =>
    by_cases hx : x = initByte a
    · simp [Memory.write, hx] at h
    · simp [Memory.write, hx] at h; exact .inr ⟨h, hx⟩
  | cons d m ih =>
    obtain ⟨d1, d2⟩ := d
    simp only [Memory.write] at h
    split at h
    · split at h
      · exact .inl h
      · rcases List.mem_cons.mp h with h | h
        · exact .inr ⟨h, by assumption⟩
        · exact .inl h
    · split at h
      · split at h
        · exact .inl (by simp [h])
        · rcases List.mem_cons.mp h with h | h
          · exact .inr ⟨h, by assumption⟩
          · exact .inl (by simp [h])
      · rcases List.mem_cons.mp h with h | h
        · exact .inl (by simp [h])
        · rcases ih h with h | h
          · exact .inl (by simp [h])
          · exact .inr h

theorem write_wf (m : List Host.Cell) (a : Nat) (x : Byte) (ha : a ≤ 0xFFF) (h : Memory.wf m) :
    Memory.wf (Memory.write m a x) := by
  refine ⟨?_, ?_⟩
  · have hp := h.1
    clear h
    induction m with
    | nil => by_cases hx : x = initByte a <;> simp [Memory.write, hx]
    | cons d m ih =>
      obtain ⟨d1, d2⟩ := d
      have hd := List.pairwise_cons.mp hp
      simp only [Memory.write]
      split
      · split
        · exact hp
        · refine List.pairwise_cons.mpr ⟨?_, hp⟩
          intro e he
          rcases List.mem_cons.mp he with rfl | he
          · assumption
          · have := hd.1 e he; simp at *; omega
      · split
        · subst_vars
          split
          · exact hd.2
          · exact List.pairwise_cons.mpr ⟨hd.1, hd.2⟩
        · refine List.pairwise_cons.mpr ⟨?_, ih hd.2⟩
          intro e he
          rcases mem_write m a x e he with he | ⟨rfl, -⟩
          · exact hd.1 e he
          · simp; omega
  · intro c hc
    rcases mem_write m a x c hc with hc | ⟨rfl, hx⟩
    · exact h.2 c hc
    · exact ⟨ha, hx⟩

theorem writeBytes_wf (xs : List Byte) : ∀ (m : List Host.Cell) (a : Nat), a + xs.length ≤ 0x1000 → Memory.wf m →
    Memory.wf (Memory.writeBytes m a xs) := by
  induction xs with
  | nil => intro m a _ h; exact h
  | cons x xs ih =>
    intro m a ha h
    simp only [List.length_cons] at ha
    exact ih _ _ (by omega) (write_wf m a x (by omega) h)

/-- After a run of stores each address in the run reads as its byte and every other address as before; the last store to
an address wins, and the run's addresses are distinct (R56, R61). -/
theorem read_writeBytes (xs : List Byte) : ∀ (m : List Host.Cell) (a b : Nat), a + xs.length ≤ 0x1000 → Memory.wf m →
    Memory.read (Memory.writeBytes m a xs) b =
      if h : a ≤ b ∧ b < a + xs.length then xs[b - a]'(by omega) else Memory.read m b := by
  induction xs with
  | nil => intro m a b _ _; rw [dif_neg (by simp only [List.length_nil]; omega)]; rfl
  | cons x xs ih =>
    intro m a b ha h
    simp only [List.length_cons] at ha
    have hw : Memory.writeBytes m a (x :: xs) = Memory.writeBytes (Memory.write m a x) (a + 1) xs := rfl
    rw [hw, ih _ _ _ (by omega) (write_wf m a x (by omega) h), read_write m a b x h.1]
    by_cases h1 : a + 1 ≤ b ∧ b < a + 1 + xs.length
    · have h2 : b - a = (b - (a + 1)) + 1 := by omega
      rw [dif_pos h1, dif_pos (by simp; omega)]
      simp [h2]
    · rw [dif_neg h1]
      by_cases h3 : b = a
      · subst h3; rw [dif_pos (by simp)]; simp
      · rw [if_neg h3, dif_neg (by simp; omega)]

@[simp] theorem length_readBytes (m : List Host.Cell) (a n : Nat) : (Memory.readBytes m a n).length = n := by
  induction n generalizing a with
  | zero => rfl
  | succ n ih => simp [Memory.readBytes, ih]

theorem getElem_readBytes (m : List Host.Cell) (a n k : Nat) (h : k < (Memory.readBytes m a n).length) :
    (Memory.readBytes m a n)[k] = Memory.read m (a + k) := by
  induction n generalizing a k with
  | zero => simp [Memory.readBytes] at h
  | succ n ih =>
    cases k with
    | zero => simp [Memory.readBytes]
    | succ k =>
      simp only [Memory.readBytes, List.getElem_cons_succ]
      rw [ih]
      congr 1; omega

/-- Memory as construction leaves it lists nothing and is canonical (R231). -/
theorem wf_nil : Memory.wf [] := by simp [Memory.wf]

/-! ### One byte of the state -/

theorem readByte_eq_of_mem_eq {s t : State} (h : t.mem = s.mem) (a : Nat) : t.readByte a = s.readByte a := by
  simp [State.readByte, h]

@[simp] theorem readByte_setReg (s : State) (x : Nibble) (b : Byte) (a : Nat) :
    (s.setReg x b).readByte a = s.readByte a := rfl
@[simp] theorem readByte_setFlag (s : State) (f : Byte) (a : Nat) : (s.setFlag f).readByte a = s.readByte a := rfl
@[simp] theorem readByte_setFlagReg (s : State) (x : Nibble) (f b : Byte) (a : Nat) :
    (s.setFlagReg x f b).readByte a = s.readByte a := rfl
@[simp] theorem readByte_setIndex (s : State) (w : Word) (a : Nat) : (s.setIndex w).readByte a = s.readByte a := rfl
@[simp] theorem readByte_advanceIndex (s : State) (n a : Nat) : (s.advanceIndex n).readByte a = s.readByte a := rfl
@[simp] theorem readByte_setRegs (s : State) (k : Nat) (bs : List Byte) (a : Nat) :
    (s.setRegs k bs).readByte a = s.readByte a := readByte_eq_of_mem_eq (setRegs_mem s k bs) a
@[simp] theorem readByte_endStep (s : State) (adv : Advance) (d : Option Diag) (a : Nat) :
    (endStep adv d s).readByte a = s.readByte a := rfl

/-- The range check of R59, as a bound on the block's end. -/
theorem blockOk_iff (s : State) (n : Nat) : s.blockOk n = true ↔ n = 0 ∨ s.i.toNat + n ≤ 0x1000 := by
  simp only [State.blockOk, Bool.or_eq_true, beq_iff_eq, decide_eq_true_eq]; omega

end Sys2Proof.Machine
end

