-- ==== Sys2Proof/Laws/Registers.lean ====
section
/-! SUPPORT. What reading a general register or a stack slot gives after each write (10_state.md R20, R25, R29, R30). -/

namespace Sys2Proof.Machine

theorem reg_eq_of_v_eq {s t : State} (h : t.v = s.v) (k : Nibble) : t.reg k = s.reg k := by
  simp [State.reg, h]

theorem reg_setReg (s : State) (x k : Nibble) (b : Byte) :
    (s.setReg x b).reg k = if k = x then b else s.reg k := by
  have hx : x.toNat = k.toNat ↔ k = x := by rw [BitVec.toNat_inj]; exact eq_comm
  simp [State.reg, Vector.getElem_set, hx]

@[simp] theorem reg_setReg_same (s : State) (x : Nibble) (b : Byte) : (s.setReg x b).reg x = b := by
  simp [reg_setReg]

theorem reg_setReg_of_ne (s : State) {x k : Nibble} (b : Byte) (h : k ≠ x) : (s.setReg x b).reg k = s.reg k := by
  simp [reg_setReg, h]

theorem reg_setFlag (s : State) (f : Byte) (k : Nibble) :
    (s.setFlag f).reg k = if k = VF then f else s.reg k := reg_setReg s VF k f

/-- The result is written last, so it is what V[x] holds even when x = F (R25). -/
theorem reg_setFlagReg (s : State) (x k : Nibble) (f b : Byte) :
    (s.setFlagReg x f b).reg k = if k = x then b else if k = VF then f else s.reg k := by
  rw [State.setFlagReg, reg_setReg, reg_setFlag]

@[simp] theorem reg_setIndex (s : State) (w : Word) (k : Nibble) : (s.setIndex w).reg k = s.reg k := rfl
@[simp] theorem reg_advanceIndex (s : State) (n : Nat) (k : Nibble) : (s.advanceIndex n).reg k = s.reg k := rfl
@[simp] theorem reg_storeBytes (s : State) (a : Nat) (xs : List Byte) (k : Nibble) :
    (s.storeBytes a xs).reg k = s.reg k := rfl
@[simp] theorem reg_storeBlock (s : State) (xs : List Byte) (k : Nibble) : (s.storeBlock xs).reg k = s.reg k := rfl
@[simp] theorem reg_endStep (s : State) (adv : Advance) (d : Option Diag) (k : Nibble) :
    (endStep adv d s).reg k = s.reg k := rfl

/-- Loading bytes into V[k], V[k+1], ... gives each register its byte and leaves the others (R193). -/
theorem reg_setRegs (bs : List Byte) : ∀ (s : State) (k : Nat) (j : Nibble), k + bs.length ≤ 16 →
    (s.setRegs k bs).reg j = if h : k ≤ j.toNat ∧ j.toNat < k + bs.length then bs[j.toNat - k]'(by omega) else s.reg j := by
  induction bs with
  | nil => intro s k j _; rw [dif_neg (by simp only [List.length_nil]; omega)]; rfl
  | cons b bs ih =>
    intro s k j hk
    simp only [List.length_cons] at hk
    have hset : (s.setRegs k (b :: bs)) = (s.setReg (BitVec.ofNat 4 k) b).setRegs (k + 1) bs := rfl
    rw [hset, ih _ _ _ (by omega), reg_setReg]
    have hj := j.isLt
    by_cases h1 : k + 1 ≤ j.toNat ∧ j.toNat < k + 1 + bs.length
    · have h2 : j.toNat - k = (j.toNat - (k + 1)) + 1 := by omega
      rw [dif_pos h1, dif_pos (by simp; omega)]
      simp [h2]
    · rw [dif_neg h1]
      by_cases h3 : j.toNat = k
      · have : j = BitVec.ofNat 4 k := by
          apply BitVec.eq_of_toNat_eq; simp [BitVec.toNat_ofNat]; omega
        rw [if_pos this, dif_pos (by simp; omega)]
        simp [h3]
      · have : j ≠ BitVec.ofNat 4 k := by
          intro e; apply h3; rw [e, BitVec.toNat_ofNat]; omega
        rw [if_neg this, dif_neg (by simp; omega)]

@[simp] theorem length_firstRegs (s : State) (n : Nat) (h : n ≤ 16) : (s.firstRegs n).length = n := by
  simp [State.firstRegs]; omega

/-- The k-th stored byte is V[k] (R192). -/
theorem getElem_firstRegs (s : State) (n k : Nat) (h : k < (s.firstRegs n).length) :
    (s.firstRegs n)[k] = s.reg (BitVec.ofNat 4 k) := by
  have hk : k < 16 := by
    have : k < n ∧ k < 16 := by simpa [State.firstRegs] using h
    exact this.2
  have e : (BitVec.ofNat 4 k).toNat = k := by rw [BitVec.toNat_ofNat]; omega
  simp only [State.firstRegs, State.reg, List.getElem_take, Vector.getElem_toList, e]

/-! ### The call stack -/

/-- A push stores at the old sp, leaves every other slot, and counts one more (R29). -/
theorem push_cases (s : State) (a : Word) :
    (s.push a = none ∧ s.sp.val = 16) ∨
    (∃ t, s.push a = some t ∧ s.sp.val < 16 ∧ t.sp.val = s.sp.val + 1 ∧ t.slot s.sp.val = a ∧
      (∀ k, k ≠ s.sp.val → t.slot k = s.slot k) ∧ t = { s with stack := t.stack, sp := t.sp }) := by
  by_cases h : s.sp.val < 16
  · refine .inr ⟨_, by rw [State.push, dif_pos h], h, rfl, ?_, ?_, rfl⟩
    · simp [State.slot]
    · intro k hk
      simp only [State.slot]
      rw [Vector.getElem?_set_ne _ (by omega)]
  · exact .inl ⟨by rw [State.push, dif_neg h], by have := s.sp.isLt; omega⟩

/-- A pop answers the slot below sp, counts one less and clears nothing (R29, R30). -/
theorem pop_cases (s : State) :
    (s.pop = none ∧ s.sp.val = 0) ∨
    (∃ t, s.pop = some (s.slot (s.sp.val - 1), t) ∧ 0 < s.sp.val ∧ t.sp.val = s.sp.val - 1 ∧
      t = { s with sp := t.sp }) := by
  by_cases h : 0 < s.sp.val
  · exact .inr ⟨_, by rw [State.pop, dif_pos h], h, rfl, rfl⟩
  · exact .inl ⟨by rw [State.pop, dif_neg h], by omega⟩

end Sys2Proof.Machine
end

