-- ==== Sys2Proof/Laws/Step.lean ====
section
/-! SUPPORT. The end of a step, and what `exec` can do at all: it always answers a next state, by `complete` or by
`decodeError` (40_execution_cycle.md R103, R107). -/

namespace Sys2Proof.Machine

theorem nextPc_normal_toNat (pc : Word) : (nextPc pc .normal).toNat = (pc.toNat + 2) % 0x10000 := by
  simp [nextPc]

theorem nextPc_skip_toNat (pc : Word) : (nextPc pc .skip).toNat = (pc.toNat + 4) % 0x10000 := by
  simp [nextPc]

theorem nextPc_jump_toNat (pc : Word) (t : Nat) : (nextPc pc (.jump t)).toNat = t % 0x10000 := by
  simp [nextPc]

@[simp] theorem nextPc_hold (pc : Word) : nextPc pc .hold = pc := rfl

theorem tick_toNat (t : Byte) : (tick t).toNat = t.toNat - 1 := by
  have := t.isLt
  unfold tick
  split
  · rw [BitVec.toNat_ofNat]; omega
  · simp; omega

theorem beeps_iff (st : Byte) : beeps st = true ↔ st.toNat = 1 := by simp [beeps]

/-- Phase (4) ticks whatever phase (3) left. -/
theorem ticked_endStep {s u : State} (adv : Advance) (d : Option Diag) (h1 : u.dt = s.dt) (h2 : u.st = s.st) :
    Ticked s (endStep adv d u) := by
  simp [Ticked, TickedFrom, tick_toNat, beeps_iff, h1, h2]

/-- A handler that completes with the Normal outcome ends normally. -/
theorem endsNormally_normal {s u : State} (h0 : u.pc = s.pc) (h1 : u.dt = s.dt) (h2 : u.st = s.st) :
    EndsNormally 2 s (endStep .normal none u) :=
  ⟨by simp [PcPlus, nextPc_normal_toNat, h0], ticked_endStep _ _ h1 h2, rfl⟩

/-- Everything a decode error does (R201). -/
theorem decodeError_spec (code : DiagCode) (w : Word) (s : State) :
    ∃ t, decodeError code w s = .next t ∧ ReportedNoOp code w s t :=
  ⟨_, rfl, ⟨fun _ _ => rfl, rfl, fun _ => rfl, ⟨rfl, rfl⟩, ⟨rfl, rfl⟩, ⟨rfl, rfl, rfl, rfl, rfl⟩⟩,
    by simp [PcPlus, nextPc_normal_toNat], ticked_endStep _ _ rfl rfl, rfl⟩

/-- A state that phase (3) may leave: the handler writes none of the fields that only the end of the step, the host or a
fetch fault writes. -/
structure Handled (s u : State) : Prop where
  pc : u.pc = s.pc
  keys : u.keys = s.keys
  halted : u.halted = s.halted
  fault : u.fault = s.fault
  loaded : u.loaded = s.loaded
  beep : u.beep = s.beep
  diag : u.diag = s.diag
  params : u.params = s.params
  rndIn : u.rndIn = s.rndIn
  draws : u.draws = s.draws

theorem Handled.refl (s : State) : Handled s s := ⟨rfl, rfl, rfl, rfl, rfl, rfl, rfl, rfl, rfl, rfl⟩

/-- What `exec` can do: complete with some handler's state and PC outcome, or report a decode error of its own word. -/
theorem exec_cases (i : Instr) (s : State) :
    (∃ adv u, exec i s = complete adv u ∧ Handled s u) ∨ (∃ c, exec i s = decodeError c (encode i) s) := by
  cases i with
  | sys nnn => exact .inr ⟨_, rfl⟩
  | cls ign => exact .inl ⟨_, _, rfl, ⟨rfl, rfl, rfl, rfl, rfl, rfl, rfl, rfl, rfl, rfl⟩⟩
  | ret ign =>
    obtain ⟨h, -⟩ | ⟨t, h, -, -, ht⟩ := pop_cases s
    · exact .inr ⟨_, by simp only [exec, execRet, h]; rfl⟩
    · refine .inl ⟨_, t, by simp only [exec, execRet, h]; rfl, ?_⟩
      rw [ht]; exact ⟨rfl, rfl, rfl, rfl, rfl, rfl, rfl, rfl, rfl, rfl⟩
  | call nnn =>
    obtain ⟨h, -⟩ | ⟨t, h, -, -, -, -, ht⟩ := push_cases s s.pc
    · exact .inr ⟨_, by simp only [exec, execCall, h]; rfl⟩
    · refine .inl ⟨_, t, by simp only [exec, execCall, h]; rfl, ?_⟩
      rw [ht]; exact ⟨rfl, rfl, rfl, rfl, rfl, rfl, rfl, rfl, rfl, rfl⟩
  | drw x y n =>
    by_cases h : s.blockOk n.toNat = true
    · exact .inl ⟨_, _, if_pos h, ⟨rfl, rfl, rfl, rfl, rfl, rfl, rfl, rfl, rfl, rfl⟩⟩
    · exact .inr ⟨_, if_neg h⟩
  | skp x ign =>
    cases h : s.keyOperand x with
    | none => exact .inr ⟨_, by simp only [exec, execSkp, h]; rfl⟩
    | some k => exact .inl ⟨_, _, by simp only [exec, execSkp, h]; rfl, Handled.refl s⟩
  | sknp x ign =>
    cases h : s.keyOperand x with
    | none => exact .inr ⟨_, by simp only [exec, execSknp, h]; rfl⟩
    | some k => exact .inl ⟨_, _, by simp only [exec, execSknp, h]; rfl, Handled.refl s⟩
  | ldVxK x ign =>
    cases h : s.scanKeys with
    | some k =>
      exact .inl ⟨.normal, s.setReg x (BitVec.ofNat 8 k), by simp only [exec, execLdVxK, h],
        ⟨rfl, rfl, rfl, rfl, rfl, rfl, rfl, rfl, rfl, rfl⟩⟩
    | none =>
      cases hm : s.params.keyWait <;>
        exact .inl ⟨_, _, by simp only [exec, execLdVxK, h, hm]; rfl, Handled.refl s⟩
  | ldB x ign =>
    by_cases h : s.blockOk 3 = true
    · exact .inl ⟨_, _, if_pos h, ⟨rfl, rfl, rfl, rfl, rfl, rfl, rfl, rfl, rfl, rfl⟩⟩
    · exact .inr ⟨_, if_neg h⟩
  | storeRegs x =>
    by_cases h : s.blockOk (x.toNat + 1) = true
    · exact .inl ⟨_, _, if_pos h, ⟨rfl, rfl, rfl, rfl, rfl, rfl, rfl, rfl, rfl, rfl⟩⟩
    · exact .inr ⟨_, if_neg h⟩
  | loadRegs x =>
    by_cases h : s.blockOk (x.toNat + 1) = true
    · exact .inl ⟨_, _, if_pos h, by constructor <;> simp⟩
    · exact .inr ⟨_, if_neg h⟩
  | _ => exact .inl ⟨_, _, rfl, ⟨rfl, rfl, rfl, rfl, rfl, rfl, rfl, rfl, rfl, rfl⟩⟩

end Sys2Proof.Machine
end

