-- ==== Sys2Proof/Laws/Fetch.lean ====
section
/-! SUPPORT. When a step fetches, and what it fetches from a state made by `withFetchWord` (40_execution_cycle.md R107). -/

namespace Sys2Proof.Machine

/-- A step of a loaded machine that is not halted, with a pc it can fetch from, is what the decoder says of the word. -/
theorem step_eq_decoded {s : State} (hl : s.loaded = true) (hh : s.halted = false) (hp : s.pc.toNat ≤ 0xFFE) :
    step s = match decode s.fetchWord with
      | .op i => exec i s
      | .unrecognized _ => decodeError .unrecognized s.fetchWord s := by
  have hf : s.fetchOk = true := by simpa [State.fetchOk] using hp
  have h : step s = _ := if_pos hl
  exact h.trans ((if_neg (by simp [hh])).trans (if_pos hf))

theorem withFetchWord_pc_le (s : State) (nbits w : Nat) : (s.withFetchWord nbits w).pc.toNat ≤ 0xFFE := by
  show (if s.fetchOk then s.pc else (0x200 : Word)).toNat ≤ 0xFFE
  by_cases h : s.fetchOk = true
  · rw [if_pos h]; simpa [State.fetchOk] using h
  · rw [if_neg h]; decide

/-- The word stored where the next instruction is fetched is the word the step fetches. -/
theorem fetchWord_withFetchWord (s : State) (nbits w : Nat) (h : Memory.wf s.mem) :
    (s.withFetchWord nbits w).fetchWord = tableWord nbits w := by
  have hp := withFetchWord_pc_le s nbits w
  have key : ∀ b, (s.withFetchWord nbits w).readByte b = _ := fun b =>
    read_writeBytes [highByte (tableWord nbits w), lowByte (tableWord nbits w)] s.mem (s.withFetchWord nbits w).pc.toNat b
      (by simp only [List.length_cons, List.length_nil]; omega) h
  unfold State.fetchWord
  rw [key, key, dif_pos (by simp), dif_pos (by simp)]
  simp [wordOfBytes_bytes]

/-- The very next step runs the instruction that `withFetchWord` placed. -/
theorem step_withFetchWord (s : State) (nbits w : Nat) (h : Memory.wf s.mem) :
    step (s.withFetchWord nbits w) = match decode (tableWord nbits w) with
      | .op i => exec i (s.withFetchWord nbits w)
      | .unrecognized _ => decodeError .unrecognized (tableWord nbits w) (s.withFetchWord nbits w) := by
  rw [step_eq_decoded rfl rfl (withFetchWord_pc_le s nbits w), fetchWord_withFetchWord s nbits w h]

end Sys2Proof.Machine
end

