-- ==== Sys2Proof/Laws/PerInstr.lean ====
section
/-! SUPPORT. The family TableRow: every word the encoder writes has the fixed bits that its row of spec/opcode_table.json
gives (the row's "fixed" list: the top nibble, and for some rows the low nibble or the low byte). One lemma per constructor. -/

namespace Sys2Proof.Laws.TableRow

/-- The fixed bits of the constructor's row: bits 15..12, and where the row fixes them bits 3..0 or bits 7..0. -/
structure Fixed where
  top : Nibble
  low : Option Nibble
  lowByte : Option Byte

/-- The row of each constructor in spec/opcode_table.json. -/
def row : Instr → Fixed
  | .sys _ => ⟨0x0, none, none⟩
  | .cls _ => ⟨0x0, some 0x0, none⟩
  | .ret _ => ⟨0x0, some 0xE, none⟩
  | .jp _ => ⟨0x1, none, none⟩
  | .call _ => ⟨0x2, none, none⟩
  | .seImm _ _ => ⟨0x3, none, none⟩
  | .sneImm _ _ => ⟨0x4, none, none⟩
  | .seReg _ _ _ => ⟨0x5, none, none⟩
  | .ldImm _ _ => ⟨0x6, none, none⟩
  | .addImm _ _ => ⟨0x7, none, none⟩
  | .ldReg _ _ => ⟨0x8, some 0x0, none⟩
  | .orReg _ _ => ⟨0x8, some 0x1, none⟩
  | .andReg _ _ => ⟨0x8, some 0x2, none⟩
  | .xorReg _ _ => ⟨0x8, some 0x3, none⟩
  | .addReg _ _ => ⟨0x8, some 0x4, none⟩
  | .subReg _ _ => ⟨0x8, some 0x5, none⟩
  | .shr _ _ => ⟨0x8, some 0x6, none⟩
  | .subnReg _ _ => ⟨0x8, some 0x7, none⟩
  | .shl _ _ => ⟨0x8, some 0xE, none⟩
  | .sneReg _ _ _ => ⟨0x9, none, none⟩
  | .ldI _ => ⟨0xA, none, none⟩
  | .jpV0 _ => ⟨0xB, none, none⟩
  | .rnd _ _ => ⟨0xC, none, none⟩
  | .drw _ _ _ => ⟨0xD, none, none⟩
  | .skp _ _ => ⟨0xE, some 0xE, none⟩
  | .sknp _ _ => ⟨0xE, some 0x1, none⟩
  | .ldVxDt _ _ => ⟨0xF, some 0x7, none⟩
  | .ldVxK _ _ => ⟨0xF, some 0xA, none⟩
  | .ldDtVx _ => ⟨0xF, none, some 0x15⟩
  | .ldStVx _ _ => ⟨0xF, some 0x8, none⟩
  | .addI _ _ => ⟨0xF, some 0xE, none⟩
  | .ldF _ _ => ⟨0xF, some 0x9, none⟩
  | .ldB _ _ => ⟨0xF, some 0x3, none⟩
  | .storeRegs _ => ⟨0xF, none, some 0x55⟩
  | .loadRegs _ => ⟨0xF, none, some 0x65⟩

/-- The word of `i` has its row's fixed bits. -/
def Statement (i : Instr) : Prop :=
  fieldN3 (encode i) = (row i).top ∧ (∀ k, (row i).low = some k → fieldN (encode i) = k) ∧
    (∀ b, (row i).lowByte = some b → fieldNN (encode i) = b)

theorem sys (nnn : Addr) : Statement (.sys nnn) := by simp [Statement, row, encode]
theorem cls (ign : Byte) : Statement (.cls ign) := by simp [Statement, row, encode]
theorem ret (ign : Byte) : Statement (.ret ign) := by simp [Statement, row, encode]
theorem jp (nnn : Addr) : Statement (.jp nnn) := by simp [Statement, row, encode]
theorem call (nnn : Addr) : Statement (.call nnn) := by simp [Statement, row, encode]
theorem seImm (x : Nibble) (nn : Byte) : Statement (.seImm x nn) := by simp [Statement, row, encode]
theorem sneImm (x : Nibble) (nn : Byte) : Statement (.sneImm x nn) := by simp [Statement, row, encode]
theorem seReg (x y : Nibble) (ign : Nibble) : Statement (.seReg x y ign) := by simp [Statement, row, encode]
theorem ldImm (x : Nibble) (nn : Byte) : Statement (.ldImm x nn) := by simp [Statement, row, encode]
theorem addImm (x : Nibble) (nn : Byte) : Statement (.addImm x nn) := by simp [Statement, row, encode]
theorem ldReg (x y : Nibble) : Statement (.ldReg x y) := by simp [Statement, row, encode]
theorem orReg (x y : Nibble) : Statement (.orReg x y) := by simp [Statement, row, encode]
theorem andReg (x y : Nibble) : Statement (.andReg x y) := by simp [Statement, row, encode]
theorem xorReg (x y : Nibble) : Statement (.xorReg x y) := by simp [Statement, row, encode]
theorem addReg (x y : Nibble) : Statement (.addReg x y) := by simp [Statement, row, encode]
theorem subReg (x y : Nibble) : Statement (.subReg x y) := by simp [Statement, row, encode]
theorem shr (x : Nibble) (ign : Nibble) : Statement (.shr x ign) := by simp [Statement, row, encode]
theorem subnReg (x y : Nibble) : Statement (.subnReg x y) := by simp [Statement, row, encode]
theorem shl (x : Nibble) (ign : Nibble) : Statement (.shl x ign) := by simp [Statement, row, encode]
theorem sneReg (x y : Nibble) (ign : Nibble) : Statement (.sneReg x y ign) := by simp [Statement, row, encode]
theorem ldI (nnn : Addr) : Statement (.ldI nnn) := by simp [Statement, row, encode]
theorem jpV0 (nnn : Addr) : Statement (.jpV0 nnn) := by simp [Statement, row, encode]
theorem rnd (x : Nibble) (nn : Byte) : Statement (.rnd x nn) := by simp [Statement, row, encode]
theorem drw (x y n : Nibble) : Statement (.drw x y n) := by simp [Statement, row, encode]
theorem skp (x : Nibble) (ign : Nibble) : Statement (.skp x ign) := by simp [Statement, row, encode]
theorem sknp (x : Nibble) (ign : Nibble) : Statement (.sknp x ign) := by simp [Statement, row, encode]
theorem ldVxDt (x : Nibble) (ign : Nibble) : Statement (.ldVxDt x ign) := by simp [Statement, row, encode]
theorem ldVxK (x : Nibble) (ign : Nibble) : Statement (.ldVxK x ign) := by simp [Statement, row, encode]
theorem ldDtVx (x : Nibble) : Statement (.ldDtVx x) := by simp [Statement, row, encode]
theorem ldStVx (x : Nibble) (ign : Nibble) : Statement (.ldStVx x ign) := by simp [Statement, row, encode]
theorem addI (x : Nibble) (ign : Nibble) : Statement (.addI x ign) := by simp [Statement, row, encode]
theorem ldF (x : Nibble) (ign : Nibble) : Statement (.ldF x ign) := by simp [Statement, row, encode]
theorem ldB (x : Nibble) (ign : Nibble) : Statement (.ldB x ign) := by simp [Statement, row, encode]
theorem storeRegs (x : Nibble) : Statement (.storeRegs x) := by simp [Statement, row, encode]
theorem loadRegs (x : Nibble) : Statement (.loadRegs x) := by simp [Statement, row, encode]

end Sys2Proof.Laws.TableRow
end

