-- ==== Sys2Proof/Tests/Slice0.lean ====
section
/-! SUPPORT. Tests and witnesses. Expected results come from the words of 30_encoding.md R84 and the vectors of
95_test_vectors.md (derived there by hand from the rules; their names V.. and S.. are in the test names). A theorem
`witness_<Name>` gives a concrete state and operands that meet all the hypotheses of `Obligations.<Name>`, a clause at a
time, at the boundary values of each clause. -/

open Sys2Proof Sys2Proof.Machine

namespace Sys2Proof.Tests

set_option Elab.async false

/-! ### Helpers: small start states, and one step on the word placed at pc -/

/-- The reset state with pc at `a` and some registers set. -/
def start (a : Word) (regs : List (Nibble × Byte)) : State :=
  regs.foldl (fun s p => s.setReg p.1 p.2) { State.reset with pc := a }

/-- The state with those keys pressed. -/
def press (ks : List Nat) (s : State) : State := { s with keys := Vector.ofFn fun k => ks.contains k.val }

/-- The state with `n` slots of the call stack occupied, each holding `a`. -/
def occupied (n : Fin 17) (a : Word) (s : State) : State := { s with stack := Vector.replicate 16 a, sp := n }

/-- The state an outcome gives, or the reset state where it gives none. -/
def after (o : Host.Outcome State Fault Refusal) : State :=
  match o with
  | .next t => t
  | .fault _ => State.reset
  | .refused _ => State.reset

/-- An outcome is a next state that satisfies the test. -/
def holds (o : Host.Outcome State Fault Refusal) (p : State → Bool) : Bool :=
  match o with
  | .next t => p t
  | .fault _ => false
  | .refused _ => false

/-- One step on the word `w` placed at the pc of `s` satisfies the test. -/
def runs (s : State) (w : Nat) (p : State → Bool) : Bool := holds (step (s.withFetchWord 16 w)) p

/-- The display with exactly the listed cells 1. -/
def lit (cells : List (Nat × Nat)) : Display := cells.foldl (fun d c => Display.flip d c.1 c.2) 0

theorem exec_eq_next (i : Instr) (s : State) : exec i s = .next (after (exec i s)) := by
  obtain ⟨_, _, h, -⟩ | ⟨_, h⟩ := exec_cases i s <;> rw [h] <;> rfl

/-! ### Well-formed terms -/

/-- The one check of `WellFormed`: a SYS term whose low nibble is 0 or E stands for no word (R75, R83). -/
theorem test_wellFormed_refuses_sys_0 : ¬ WellFormed (.sys 0x120) := by decide
theorem test_wellFormed_refuses_sys_E : ¬ WellFormed (.sys 0x12E) := by decide
theorem test_wellFormed_accepts_sys : WellFormed (.sys 0x123) := by decide

/-! ### Decoding: words written out from R73 to R79 and R84, one at least for every constructor -/

/-- 0000_nnnnnnnn_kkkk: T0 (R75). -/
theorem test_decode_T0 :
    decode 0b0000_0000_1110_0000 = .op (.cls 0x0E) ∧ decode 0b0000_0000_1110_1110 = .op (.ret 0x0E) ∧
    decode 0b0000_0001_0010_0011 = .op (.sys 0x123) ∧ decode 0x012E = .op (.ret 0x12) ∧ decode 0x0000 = .op (.cls 0) := by
  decide

theorem test_decode_control :
    decode 0b0001_0011_1010_1011 = .op (.jp 0x3AB) ∧ decode 0b0010_0100_0000_0000 = .op (.call 0x400) ∧
    decode 0b1011_0101_0000_0001 = .op (.jpV0 0x501) := by decide

theorem test_decode_skip :
    decode 0b0011_0011_0100_0010 = .op (.seImm 3 0x42) ∧ decode 0b0100_0011_0100_0010 = .op (.sneImm 3 0x42) ∧
    decode 0b0101_0001_0010_0101 = .op (.seReg 1 2 5) ∧ decode 0b1001_0001_0010_1111 = .op (.sneReg 1 2 0xF) := by decide

theorem test_decode_immediate_index_random :
    decode 0b0110_1010_0010_1111 = .op (.ldImm 0xA 0x2F) ∧ decode 0b0111_0011_0000_0001 = .op (.addImm 3 1) ∧
    decode 0b1010_1111_1111_1110 = .op (.ldI 0xFFE) ∧ decode 0b1100_0011_0000_1111 = .op (.rnd 3 0x0F) ∧
    decode 0b1111_0001_1110_1110 = .op (.addI 1 0xE) := by decide

theorem test_decode_T8_logic :
    decode 0b1000_0001_0010_0000 = .op (.ldReg 1 2) ∧ decode 0b1000_0001_0010_0001 = .op (.orReg 1 2) ∧
    decode 0b1000_0001_0010_0010 = .op (.andReg 1 2) ∧ decode 0b1000_0001_0010_0011 = .op (.xorReg 1 2) := by decide

theorem test_decode_T8_arithmetic :
    decode 0b1000_0001_0010_0100 = .op (.addReg 1 2) ∧ decode 0b1000_0001_0010_0101 = .op (.subReg 1 2) ∧
    decode 0b1000_0001_0010_0110 = .op (.shr 1 2) ∧ decode 0b1000_0001_0010_0111 = .op (.subnReg 1 2) ∧
    decode 0b1000_0001_0010_1110 = .op (.shl 1 2) := by decide

theorem test_decode_display_keys :
    decode 0b1101_0001_0010_1111 = .op (.drw 1 2 0xF) ∧ decode 0b1110_0101_1001_1110 = .op (.skp 5 9) ∧
    decode 0b1110_0101_1010_0001 = .op (.sknp 5 0xA) ∧ decode 0b1111_0010_0000_1010 = .op (.ldVxK 2 0) := by decide

theorem test_decode_timers :
    decode 0b1111_0001_1111_0111 = .op (.ldVxDt 1 0xF) ∧ decode 0b1111_0001_0001_0101 = .op (.ldDtVx 1) ∧
    decode 0b1111_0001_0001_1000 = .op (.ldStVx 1 1) := by decide

theorem test_decode_transfer :
    decode 0b1111_0100_0010_1001 = .op (.ldF 4 2) ∧ decode 0b1111_0000_0011_0011 = .op (.ldB 0 3) ∧
    decode 0b1111_0011_0101_0101 = .op (.storeRegs 3) ∧ decode 0b1111_0011_0110_0101 = .op (.loadRegs 3) := by decide

/-- V12, V14, V16, V80: reserved words, each refused by the name of its table. -/
theorem test_decode_reserved :
    decode 0x8AB8 = .unrecognized .t8 ∧ decode 0x8ABF = .unrecognized .t8 ∧ decode 0xE19F = .unrecognized .te ∧
    decode 0xE1A2 = .unrecognized .te ∧ decode 0xF125 = .unrecognized .tf5 ∧ decode 0xF100 = .unrecognized .tf ∧
    decode 0xF10B = .unrecognized .tf ∧ decode 0xF10F = .unrecognized .tf := by decide

/-- The host's numbering, and a byte string too short for a word. -/
theorem test_decode_table_word :
    decodeTableWord 16 0x13AB = some (.jp 0x3AB) ∧ decodeTableWord 16 0x8AB8 = none ∧
    decodeBytes [0x12] = (.unrecognized .truncated, [0x12]) ∧ decodeBytes [0x12, 0x34, 0x56] = (.op (.jp 0x234), [0x56]) := by
  decide

/-! ### The step -/

/-- V2: an odd pc is legal; V3: so is the last word of memory. -/
theorem test_V2_odd_pc : runs (start 0x201 []) 0x6007 (fun t => t.reg 0 == 7 && t.pc == 0x203) = true := by decide +kernel
theorem test_V3_last_word : runs (start 0xFFE []) 0x1200 (fun t => t.pc == 0x200) = true := by decide +kernel

/-- V4: a fetch fault; no tick. -/
theorem test_V4_fetch_fault :
    holds (step { start 0xFFF [] with loaded := true, dt := 5 }) (fun t => t.fault && t.halted && t.dt == 5 &&
      t.pc == 0xFFF && t.diag == some ⟨.fetchRange, none, 0xFFF⟩) = true := by decide +kernel

/-- V5: no effect when halted. -/
theorem test_V5_halted :
    holds (step { start 0x200 [] with loaded := true, halted := true, fault := true, dt := 5 }) (fun t => t ==
      { start 0x200 [] with loaded := true, halted := true, fault := true, dt := 5 }) = true := by decide +kernel

/-- V6: refused without a ROM. -/
theorem test_V6_not_loaded : step State.reset = .refused .notLoaded := rfl

/-- V7: a reserved word is a reported no-op; the timers of V8 tick in it. -/
theorem test_V7_reserved_word :
    runs { start 0x200 [] with dt := 3, st := 1 } 0x8AB8 (fun t => t.pc == 0x202 && t.dt == 2 && t.st == 0 && t.beep &&
      t.diag == some ⟨.unrecognized, some 0x8AB8, 0x200⟩) = true := by decide +kernel

/-! ### One or two steps for each instruction -/

/-- V8. -/
theorem test_sys_V8 :
    runs { start 0x200 [] with dt := 3, st := 1 } 0x0123 (fun t => t.pc == 0x202 && t.dt == 2 && t.st == 0 && t.beep &&
      t.diag == some ⟨.unrecognized, some 0x0123, 0x200⟩) = true := by decide +kernel
/-- V122, V9. -/
theorem test_cls_V122 :
    runs { start 0x200 [(0xF, 7)] with disp := lit [(3, 4), (63, 31)] } 0x00E0 (fun t => t.disp == 0 && t.dirty &&
      t.reg 0xF == 7) = true := by decide +kernel
theorem test_cls_V9 :
    runs { start 0x200 [] with disp := lit [(0, 0)] } 0x0000 (fun t => t.disp == 0 && t.dirty && t.pc == 0x202 &&
      t.diag == none) = true := by decide +kernel
/-- V26, V24. -/
theorem test_ret_V26 : runs (occupied 1 0xFFE (start 0x400 [])) 0x00EE (fun t => t.pc == 0x1000 && t.sp == 0) = true := by
  decide +kernel
theorem test_ret_V24 :
    runs (start 0x400 []) 0x00EE (fun t => t.pc == 0x402 && t.diag == some ⟨.stackUnderflow, some 0x00EE, 0x400⟩) = true := by
  decide +kernel
/-- S2, V21. -/
theorem test_jp_S2 : runs (start 0x200 []) 0x13AB (fun t => t.pc == 0x3AB) = true := by decide +kernel
theorem test_jp_V21 : runs (start 0x200 []) 0x1FFF (fun t => t.pc == 0xFFF) = true := by decide +kernel
/-- V22, V23. -/
theorem test_call_V22 :
    runs (start 0x204 []) 0x2400 (fun t => t.slot 0 == 0x204 && t.sp == 1 && t.pc == 0x400) = true := by decide +kernel
theorem test_call_V23 :
    runs (occupied 16 0x345 (start 0x300 [])) 0x2400 (fun t => t.pc == 0x302 && t.sp == 16 && t.slot 15 == 0x345 &&
      t.diag == some ⟨.stackOverflow, some 0x2400, 0x300⟩) = true := by decide +kernel
/-- V29, V30. -/
theorem test_jpV0_V29 : runs (start 0x200 [(0, 2)]) 0xBFFF (fun t => t.pc == 0x1001) = true := by decide +kernel
theorem test_jpV0_V30 : runs (start 0x200 [(0, 5), (5, 0x99)]) 0xB500 (fun t => t.pc == 0x505) = true := by decide +kernel
/-- V54, V41. -/
theorem test_seImm_V54 : runs (start 0xFFC [(3, 0x42)]) 0x3342 (fun t => t.pc == 0x1000) = true := by decide +kernel
theorem test_seImm_V41 : runs (start 0x210 [(3, 0x42)]) 0x3343 (fun t => t.pc == 0x212) = true := by decide +kernel
/-- V42, V43. -/
theorem test_sneImm_V42 : runs (start 0x210 [(3, 0x42)]) 0x4342 (fun t => t.pc == 0x212) = true := by decide +kernel
theorem test_sneImm_V43 : runs (start 0x210 [(3, 0x42)]) 0x4300 (fun t => t.pc == 0x214) = true := by decide +kernel
/-- V44, V45. -/
theorem test_seReg_V44 : runs (start 0x210 [(1, 7), (2, 7)]) 0x5125 (fun t => t.pc == 0x214) = true := by decide +kernel
theorem test_seReg_V45 : runs (start 0x210 [(1, 7), (2, 8)]) 0x5120 (fun t => t.pc == 0x212) = true := by decide +kernel
/-- V47, V48. -/
theorem test_sneReg_V47 : runs (start 0x210 [(1, 7), (2, 8)]) 0x912F (fun t => t.pc == 0x214) = true := by decide +kernel
theorem test_sneReg_V48 : runs (start 0x210 [(3, 7)]) 0x9330 (fun t => t.pc == 0x212) = true := by decide +kernel
/-- V60. -/
theorem test_ldReg_V60 : runs (start 0x200 [(2, 0x5A)]) 0x8120 (fun t => t.reg 1 == 0x5A && t.reg 2 == 0x5A) = true := by
  decide +kernel
/-- V61. -/
theorem test_orReg_V61 :
    runs (start 0x200 [(1, 0xF0), (2, 0x0F), (0xF, 7)]) 0x8121 (fun t => t.reg 1 == 0xFF && t.reg 0xF == 7) = true := by
  decide +kernel
/-- V62. -/
theorem test_andReg_V62 :
    runs (start 0x200 [(1, 0xF0), (2, 0x3C), (0xF, 7)]) 0x8122 (fun t => t.reg 1 == 0x30 && t.reg 0xF == 7) = true := by
  decide +kernel
/-- V63. -/
theorem test_xorReg_V63 : runs (start 0x200 [(1, 0xF0), (2, 0x3C)]) 0x8123 (fun t => t.reg 1 == 0xCC) = true := by
  decide +kernel
/-- S3, V67. -/
theorem test_addReg_S3 :
    runs (start 0x200 [(0, 0xFF), (1, 1)]) 0x8014 (fun t => t.reg 0 == 0 && t.reg 0xF == 1) = true := by decide +kernel
theorem test_addReg_V67 : runs (start 0x200 [(0xF, 1), (1, 0xFF)]) 0x8F14 (fun t => t.reg 0xF == 0) = true := by
  decide +kernel
/-- S5, V69. -/
theorem test_subReg_S5 :
    runs (start 0x200 [(0, 5), (1, 0xA)]) 0x8015 (fun t => t.reg 0 == 0xFB && t.reg 0xF == 0) = true := by decide +kernel
theorem test_subReg_V69 :
    runs (start 0x200 [(1, 7), (2, 7)]) 0x8125 (fun t => t.reg 1 == 0 && t.reg 0xF == 1) = true := by decide +kernel
/-- V73, V74. -/
theorem test_shr_V73 :
    runs (start 0x200 [(4, 5), (5, 0x80)]) 0x8456 (fun t => t.reg 4 == 2 && t.reg 0xF == 1 && t.reg 5 == 0x80) = true := by
  decide +kernel
theorem test_shr_V74 : runs (start 0x200 [(0xF, 3)]) 0x8FF6 (fun t => t.reg 0xF == 1) = true := by decide +kernel
/-- V75, V76. -/
theorem test_subnReg_V75 :
    runs (start 0x200 [(1, 5), (2, 0xA)]) 0x8127 (fun t => t.reg 1 == 5 && t.reg 0xF == 1) = true := by decide +kernel
theorem test_subnReg_V76 :
    runs (start 0x200 [(1, 0xA), (2, 5)]) 0x8127 (fun t => t.reg 1 == 0xFB && t.reg 0xF == 0) = true := by decide +kernel
/-- V77, V79. -/
theorem test_shl_V77 : runs (start 0x200 [(4, 0x81)]) 0x840E (fun t => t.reg 4 == 2 && t.reg 0xF == 1) = true := by
  decide +kernel
theorem test_shl_V79 : runs (start 0x200 [(0xF, 0x80)]) 0x8FFE (fun t => t.reg 0xF == 0) = true := by decide +kernel
/-- V90. -/
theorem test_ldImm_V90 : runs (start 0x200 []) 0x6A2F (fun t => t.reg 0xA == 0x2F && t.pc == 0x202) = true := by
  decide +kernel
/-- V91, V92. -/
theorem test_addImm_V91 : runs (start 0x200 [(3, 0xFE)]) 0x7303 (fun t => t.reg 3 == 1 && t.reg 0xF == 0) = true := by
  decide +kernel
theorem test_addImm_V92 : runs (start 0x200 [(0xF, 0xFF)]) 0x7F01 (fun t => t.reg 0xF == 0) = true := by decide +kernel
/-- V93. -/
theorem test_ldI_V93 : runs (start 0x200 []) 0xAFFF (fun t => t.i == 0xFFF) = true := by decide +kernel
/-- V96, V95. -/
theorem test_addI_V96 :
    runs { start 0x200 [(2, 0x20)] with i := 0x0FF0 } 0xF21E (fun t => t.i == 0x1010 && t.reg 0xF == 1) = true := by
  decide +kernel
theorem test_addI_V95 :
    runs { start 0x200 [(1, 0xFF)] with i := 0xF00 } 0xF11E (fun t => t.i == 0xFFF && t.reg 0xF == 0) = true := by
  decide +kernel
/-- V100, V101: with the byte the host gives, and with the free one. -/
theorem test_rnd_V100 : runs { start 0x200 [] with rndIn := some 0xA7 } 0xC30F (fun t => t.reg 3 == 7) = true := by
  decide +kernel
theorem test_rnd_V101 : (after (exec (.rnd 3 0x00) State.reset)).reg 3 = 0 := by simp [exec, execRnd, complete, after]
/-- V114, V121. -/
theorem test_drw_V114 :
    runs { (start 0x200 [(0, 0x3E), (1, 0x1F)]).storeBytes 0x300 [0xFF, 0xFF] with i := 0x300, params := ⟨.scan, .wrap⟩ }
      0xD012 (fun t => t.reg 0xF == 0 && t.dirty && t.disp == lit [(62, 31), (63, 31), (0, 31), (1, 31), (2, 31), (3, 31),
        (4, 31), (5, 31), (62, 0), (63, 0), (0, 0), (1, 0), (2, 0), (3, 0), (4, 0), (5, 0)]) = true := by decide +kernel
theorem test_drw_V121 :
    runs { (start 0x200 []).storeBytes 0x300 [0x81] with
        i := 0x300, disp := lit [(0, 0), (1, 0), (2, 0), (3, 0), (4, 0), (5, 0), (6, 0), (7, 0)] }
      0xD011 (fun t => t.reg 0xF == 1 && t.disp == lit [(1, 0), (2, 0), (3, 0), (4, 0), (5, 0), (6, 0)]) = true := by
  decide +kernel
/-- V49, V52. -/
theorem test_skp_V49 : runs (press [10] (start 0x210 [(5, 0xA)])) 0xE59E (fun t => t.pc == 0x214) = true := by
  decide +kernel
theorem test_skp_V52 :
    runs (start 0x210 [(5, 0x10)]) 0xE59E (fun t => t.pc == 0x212 && t.diag == some ⟨.keyRange, some 0xE59E, 0x210⟩) = true := by
  decide +kernel
/-- V51, V53. -/
theorem test_sknp_V51 : runs (start 0x210 [(5, 0xA)]) 0xE5A1 (fun t => t.pc == 0x214) = true := by decide +kernel
theorem test_sknp_V53 :
    runs (start 0x210 [(5, 0xFF)]) 0xE5A1 (fun t => t.pc == 0x212 && t.diag == some ⟨.keyRange, some 0xE5A1, 0x210⟩) = true := by
  decide +kernel
/-- V135. -/
theorem test_ldVxDt_V135 : runs { start 0x200 [] with dt := 5 } 0xF307 (fun t => t.reg 3 == 5 && t.dt == 4) = true := by
  decide +kernel
/-- V130, V132. -/
theorem test_ldVxK_V130 : runs (press [3, 12] (start 0x200 [])) 0xF20A (fun t => t.reg 2 == 0xC && t.pc == 0x202) = true := by
  decide +kernel
theorem test_ldVxK_V132 :
    runs { start 0x200 [(2, 9)] with dt := 2, params := ⟨.block, .clip⟩ } 0xF20A (fun t => t.reg 2 == 9 && t.pc == 0x200 &&
      t.dt == 1 && t.diag == none) = true := by decide +kernel
/-- V136, V137. -/
theorem test_ldDtVx_V136 : runs (start 0x200 [(1, 5)]) 0xF115 (fun t => t.dt == 4) = true := by decide +kernel
theorem test_ldDtVx_V137 : runs { start 0x200 [] with dt := 9 } 0xF115 (fun t => t.dt == 0) = true := by decide +kernel
/-- V138, V140. -/
theorem test_ldStVx_V138 : runs (start 0x200 [(1, 1)]) 0xF118 (fun t => t.st == 0 && t.beep) = true := by decide +kernel
theorem test_ldStVx_V140 : runs { start 0x200 [] with st := 5 } 0xF118 (fun t => t.st == 0 && !t.beep) = true := by
  decide +kernel
/-- S13, V151. -/
theorem test_ldF_S13 : runs (start 0x200 [(4, 0xA)]) 0xF429 (fun t => t.i == 0x032) = true := by decide +kernel
theorem test_ldF_V151 : runs (start 0x200 [(4, 0xFF)]) 0xF429 (fun t => t.i == 0x4FB && t.diag == none) = true := by
  decide +kernel
/-- V154, V155. -/
theorem test_ldB_V154 :
    runs { start 0x200 [(0, 0xFF)] with i := 0xFFD } 0xF033 (fun t => t.readByte 0xFFD == 2 && t.readByte 0xFFE == 5 &&
      t.readByte 0xFFF == 5 && t.i == 0xFFD) = true := by decide +kernel
theorem test_ldB_V155 :
    runs { start 0x200 [(0, 0xFF)] with i := 0xFFE } 0xF033 (fun t => t.readByte 0xFFE == 0 && t.pc == 0x202 &&
      t.diag == some ⟨.memRange, some 0xF033, 0x200⟩) = true := by decide +kernel
/-- V156, V159. -/
theorem test_storeRegs_V156 :
    runs { start 0x200 [(0, 1), (1, 2), (2, 3), (3, 4), (4, 5)] with i := 0x300 } 0xF355 (fun t => t.i == 0x304 &&
      Memory.readBytes t.mem 0x300 5 == [1, 2, 3, 4, 0]) = true := by decide +kernel
theorem test_storeRegs_V159 :
    runs { start 0x200 [(0, 1)] with i := 0xFF1 } 0xFF55 (fun t => t.i == 0xFF1 && t.readByte 0xFF1 == 0 &&
      t.diag == some ⟨.memRange, some 0xFF55, 0x200⟩) = true := by decide +kernel
/-- V161, V162. -/
theorem test_loadRegs_V161 :
    runs { (start 0x200 [(4, 9)]).storeBytes 0x300 [0xA, 0xB, 0xC, 0xD, 0xE] with i := 0x300 } 0xF365 (fun t =>
      t.v == #v[0xA, 0xB, 0xC, 0xD, 9, 0, 0, 0, 0, 0, 0, 0, 0, 0, 0, 0] && t.i == 0x304) = true := by decide +kernel
theorem test_loadRegs_V162 :
    runs { (start 0x200 []).storeBytes 0x30F [0x77] with i := 0x300 } 0xFF65 (fun t => t.reg 0xF == 0x77 &&
      t.i == 0x310) = true := by decide +kernel

/-! ### The host -/

/-- V173, V174: an empty ROM loads, a second load is refused. -/
theorem test_loadRom_V173 : holds (loadRom [] State.reset) (fun t => t.loaded && t.mem == []) = true := by decide +kernel
theorem test_loadRom_V174 : loadRom [] { State.reset with loaded := true } = .refused .alreadyLoaded := rfl
/-- V170: the font at construction. -/
theorem test_construct_V170 :
    State.reset.readByte 0x000 = 0xF0 ∧ State.reset.readByte 0x04F = 0x80 ∧ State.reset.readByte 0x050 = 0 ∧
    State.reset.readByte 0x005 = 0x20 := by decide

/-! ### Witnesses: states and operands that meet the hypotheses of the statements, clause by clause -/

/-- A loaded machine at pc `a` with the word `w` there. -/
def ready (a : Word) (w : Nat) : State := (start a []).withFetchWord 16 w

/-- An outcome that is a next state is the state it gives. -/
theorem eq_next {o : Host.Outcome State Fault Refusal} (h : holds o (fun _ => true) = true) : o = .next (after o) := by
  cases o with
  | next t => rfl
  | fault r => exact absurd h (by simp [holds])
  | refused r => exact absurd h (by simp [holds])

theorem witness_DecodeAndEncodeAgree :
    WellFormed (.sys 0x123) ∧ WellFormed (.drw 0xF 0xF 0xF) ∧ decode 0x8AB4 = .op (.addReg 0xA 0xB) := by decide

theorem witness_ReservedWordsAreReportedNoOps :
    (ready 0xFFE 0x8AB8).loaded = true ∧ (ready 0xFFE 0x8AB8).halted = false ∧ (ready 0xFFE 0x8AB8).pc.toNat = 0xFFE ∧
    reservedWord (ready 0xFFE 0x8AB8).fetchWord = true ∧ reservedWord (ready 0x200 0x0123).fetchWord = true := by
  decide +kernel

theorem witness_StepRunsDecodedInstruction :
    (ready 0xFFE 0x1200).loaded = true ∧ (ready 0xFFE 0x1200).halted = false ∧ (ready 0xFFE 0x1200).pc.toNat = 0xFFE ∧
    decode (wordOfBytes ((ready 0xFFE 0x1200).readByte 0xFFE) ((ready 0xFFE 0x1200).readByte 0xFFF)) = .op (.jp 0x200) := by
  decide +kernel

/-- Not loaded; loaded and halted. -/
theorem witness_StepRefusedOrWithoutEffect :
    State.reset.loaded = false ∧
    ({ ready 0x200 0 with halted := true, fault := true } : State).loaded = true ∧
    ({ ready 0x200 0 with halted := true, fault := true } : State).halted = true := by decide +kernel

theorem witness_FetchFaultHaltsForGood :
    ({ ready 0x200 0 with pc := 0xFFF } : State).loaded = true ∧ ({ ready 0x200 0 with pc := 0xFFF } : State).halted = false ∧
    0xFFE < ({ ready 0x200 0 with pc := 0xFFF } : State).pc.toNat := by decide +kernel

theorem witness_LoadedMachineAlwaysSteps :
    (ready 0x200 0x8AB8).loaded = true ∧ ({ ready 0x200 0 with pc := 0xFFF } : State).loaded = true := by decide +kernel

theorem witness_DecodeErrorCauses :
    (ready 0xFFE 0x6A2F).loaded = true ∧ (ready 0xFFE 0x6A2F).halted = false ∧ (ready 0xFFE 0x6A2F).pc.toNat ≤ 0xFFE := by
  decide +kernel

/-- One state for each of the five causes. -/
theorem witness_DecodeErrorWritesNothing :
    (ready 0x200 0x8AB8).loaded = true ∧ (ready 0x200 0x8AB8).halted = false ∧ (ready 0x200 0x8AB8).pc.toNat ≤ 0xFFE ∧
    wordCause 0x8AB8 (ready 0x200 0x8AB8) = some .unrecognized ∧
    wordCause 0x2400 (occupied 16 0x200 (ready 0x200 0x2400)) = some .stackOverflow ∧
    wordCause 0x00EE (ready 0x200 0x00EE) = some .stackUnderflow ∧
    wordCause 0xF033 { ready 0x200 0xF033 with i := 0xFFE } = some .memRange ∧
    wordCause 0xE09E ((ready 0x200 0xE09E).setReg 0 16) = some .keyRange := by decide +kernel

/-- Performed, halted, and past the last address a fetch may have. -/
theorem witness_EveryPerformedStepTicks :
    (∃ t, step { ready 0x200 0x1200 with st := 1 } = .next t) ∧ (ready 0x200 0x1200).halted = false ∧
    (ready 0x200 0x1200).pc.toNat ≤ 0xFFE ∧
    (∃ t, step { ready 0x200 0x1200 with halted := true } = .next t) ∧
    (∃ t, step { ready 0x200 0x1200 with pc := 0xFFF } = .next t) := by
  refine ⟨⟨_, eq_next (by decide +kernel)⟩, by decide +kernel, by decide +kernel, ⟨_, eq_next (by decide +kernel)⟩,
    ⟨_, eq_next (by decide +kernel)⟩⟩

theorem witness_OnlyRndReadsTheRandomByte :
    ∀ x nn, decode (ready 0x200 0x6A2F).fetchWord ≠ .op (.rnd x nn) := by
  intro x nn
  have h : decode (ready 0x200 0x6A2F).fetchWord = .op (.ldImm 0xA 0x2F) := by decide +kernel
  rw [h]; simp

/-- A state with a CALL at 0xFFE saved, and a halted one. -/
theorem witness_StepKeepsInvariant :
    Inv (occupied 1 0xFFE (ready 0x400 0x00EE)) ∧ (∃ t, step (occupied 1 0xFFE (ready 0x400 0x00EE)) = .next t) ∧
    Inv { ready 0x200 0 with pc := 0x1000, halted := true, fault := true } := by
  refine ⟨⟨by decide +kernel, by decide +kernel, by decide +kernel, by decide +kernel, by decide +kernel, by decide +kernel⟩,
    ⟨_, eq_next (by decide +kernel)⟩,
    ⟨by decide +kernel, by decide +kernel, by decide +kernel, by decide +kernel, by decide +kernel, by decide +kernel⟩⟩

theorem witness_EveryReachableStateHasInvariant :
    Inv State.reset ∧ (∃ t, hostStep (.loadRom [0x12, 0x00]) State.reset = .next t) ∧
    (∃ t, hostStep (.setKeys (Vector.replicate 16 true)) State.reset = .next t) := by
  refine ⟨⟨by decide +kernel, by decide +kernel, by decide +kernel, by decide +kernel, by decide +kernel, by decide +kernel⟩,
    ⟨_, rfl⟩, ⟨_, rfl⟩⟩

/-- A halted machine stays halted; a machine that becomes halted by a fetch at 0xFFF. -/
theorem witness_HaltedOnlyByFetchFault :
    (∃ t, hostStep (.step 0) { ready 0x200 0 with halted := true } = .next t) ∧
    ({ ready 0x200 0 with halted := true } : State).halted = true ∧
    (∃ t, hostStep (.step 0) { ready 0x200 0 with pc := 0xFFF } = .next t ∧ t.halted = true) ∧
    ({ ready 0x200 0 with pc := 0xFFF } : State).halted = false := by
  refine ⟨⟨_, eq_next (by decide +kernel)⟩, by decide +kernel, ⟨_, eq_next (by decide +kernel), by decide +kernel⟩,
    by decide +kernel⟩

theorem witness_CanonicalMemoriesAreEqualData :
    Memory.wf [(0x000, 0x11), (0xFFF, 0x22)] ∧
    Memory.wf (Memory.write (Memory.write [] 0xFFF 0x22) 0x000 0x11) ∧
    (∀ a, Memory.read [(0x000, 0x11), (0xFFF, 0x22)] a =
      Memory.read (Memory.write (Memory.write [] 0xFFF 0x22) 0x000 0x11) a) := by
  refine ⟨by decide +kernel, by decide +kernel, fun a => ?_⟩
  rw [show Memory.write (Memory.write [] 0xFFF 0x22) 0x000 0x11 = [(0x000, 0x11), (0xFFF, 0x22)] by decide +kernel]

/-- The register just past X in LD VX, [I], and one an addition does not write. -/
theorem witness_RegisterWriters :
    (∃ t, exec (.loadRegs 3) State.reset = .next t) ∧ mayWriteReg (.loadRegs 3) 4 = false ∧
    (∃ t, exec (.addReg 1 2) State.reset = .next t) ∧ mayWriteReg (.addReg 1 2) 2 = false :=
  ⟨⟨_, exec_eq_next _ _⟩, by decide, ⟨_, exec_eq_next _ _⟩, by decide⟩

/-- The bytes just below and just past the three of LD B, and just past those of LD [I], VX. -/
theorem witness_MemoryWriters :
    (∃ t, exec (.ldB 0 3) { State.reset with i := 0x300 } = .next t) ∧
    mayStoreAt (.ldB 0 3) { State.reset with i := 0x300 } 0x2FF = false ∧
    mayStoreAt (.ldB 0 3) { State.reset with i := 0x300 } 0x303 = false ∧
    mayStoreAt (.storeRegs 3) { State.reset with i := 0x300 } 0x304 = false :=
  ⟨⟨_, exec_eq_next _ _⟩, by decide +kernel, by decide +kernel, by decide +kernel⟩

theorem witness_SpecialStateWriters :
    (∃ t, exec (.addReg 1 2) State.reset = .next t) ∧ mayWriteIndex (.addReg 1 2) = false ∧
    mayReachStack (.addReg 1 2) = false ∧ mayWriteDisplay (.addReg 1 2) = false :=
  ⟨⟨_, exec_eq_next _ _⟩, by decide, by decide, by decide⟩

/-- One instruction for each clause; the last reports a decode error. -/
theorem witness_PcOutcomes :
    (∃ t, exec (.ldImm 1 2) State.reset = .next t) ∧ mayJump (.ldImm 1 2) = false ∧ maySkip (.ldImm 1 2) = false ∧
    mayHold (.ldImm 1 2) = false ∧ (∃ t, exec (.seImm 0 0) State.reset = .next t) ∧ maySkip (.seImm 0 0) = true ∧
    (∃ t, exec (.ldVxK 0 0) State.reset = .next t) ∧ mayHold (.ldVxK 0 0) = true ∧
    (∃ t, exec (.ret 0x0E) State.reset = .next t ∧ t.diag ≠ none) :=
  ⟨⟨_, exec_eq_next _ _⟩, by decide, by decide, by decide, ⟨_, exec_eq_next _ _⟩, by decide, ⟨_, exec_eq_next _ _⟩,
    by decide, ⟨_, exec_eq_next _ _, by decide +kernel⟩⟩

/-- The last free slot, and a full stack. -/
theorem witness_CallPushesItsOwnAddress :
    (occupied 15 0x200 State.reset).sp.val < 16 ∧ (occupied 16 0x200 State.reset).sp.val = 16 := by decide +kernel

/-- One slot, all sixteen, and none. -/
theorem witness_RetResumesPastTheCall :
    0 < (occupied 1 0x200 State.reset).sp.val ∧ 0 < (occupied 16 0x200 State.reset).sp.val ∧ State.reset.sp.val = 0 := by
  decide +kernel

/-- A CALL into the last free slot, and a subroutine that changed a register. -/
theorem witness_CallThenRetComesBack :
    ∃ s t v : State, s.sp.val < 16 ∧ exec (.call 0x400) s = .next t ∧ v.sp = t.sp ∧ v.slot s.sp.val = t.slot s.sp.val ∧
      s.sp.val = 15 ∧ v.reg 0 ≠ t.reg 0 :=
  ⟨occupied 15 0x200 State.reset, after (exec (.call 0x400) (occupied 15 0x200 State.reset)),
    (after (exec (.call 0x400) (occupied 15 0x200 State.reset))).setReg 0 7,
    by decide +kernel, exec_eq_next _ _, by decide +kernel, by decide +kernel, by decide +kernel, by decide +kernel⟩

theorem witness_SysIsReportedNoOp :
    ((0x12F : Addr).toNat % 16 ≠ 0x0 ∧ (0x12F : Addr).toNat % 16 ≠ 0xE) ∧ (0x120 : Addr).toNat % 16 = 0x0 ∧
    (0x12E : Addr).toNat % 16 = 0xE := by decide

theorem witness_SkipOnByte :
    (start 0x200 [(3, 0x42)]).reg 3 = 0x42 ∧ (start 0x200 [(3, 0x42)]).reg 3 ≠ 0x43 := by decide +kernel

theorem witness_SkipOnRegister :
    (start 0x200 [(1, 7), (2, 7)]).reg 1 = (start 0x200 [(1, 7), (2, 7)]).reg 2 ∧
    (start 0x200 [(1, 7), (2, 8)]).reg 1 ≠ (start 0x200 [(1, 7), (2, 8)]).reg 2 := by decide +kernel

/-- The last key index pressed and not pressed; the first value past it. -/
theorem witness_SkipOnKey :
    ((start 0x200 [(5, 15)]).reg 5).toNat < 16 ∧ (press [15] (start 0x200 [(5, 15)])).keys[15] = true ∧
    (start 0x200 [(5, 15)]).keys[15] = false ∧ 15 < ((start 0x200 [(5, 16)]).reg 5).toNat := by decide +kernel

/-- The flag clause of AddSetsCarry, SubtractionsSetNoBorrow and ShiftsSetTheBitShiftedOut: X other than F. -/
theorem witness_AddSetsCarry : (0xE : Nibble) ≠ VF := by decide
theorem witness_SubtractionsSetNoBorrow : (0x0 : Nibble) ≠ VF := by decide
theorem witness_ShiftsSetTheBitShiftedOut : (0xE : Nibble) ≠ VF := by decide

/-- The byte given, and left free. -/
theorem witness_RndMasksAnyByte :
    ({ State.reset with rndIn := some 0xA7 } : State).rndIn = some 0xA7 ∧ State.reset.rndIn = none := by decide +kernel

theorem witness_ClsClearsEveryCell : 63 < 64 ∧ 31 < 32 := by decide

/-- No row at any I; the last row that fits; one row too many; a cell that is hit and one that is not. -/
theorem witness_DrwDrawsTheSprite :
    ((0 : Nibble).toNat = 0 ∧ ({ State.reset with i := 0xFFFF } : State).i.toNat = 0xFFFF) ∧
    ({ State.reset with i := 0xFFF } : State).i.toNat + (1 : Nibble).toNat - 1 ≤ 0xFFF ∧
    (0 < (2 : Nibble).toNat ∧ ({ State.reset with i := 0xFFF } : State).i.toNat + (2 : Nibble).toNat - 1 > 0xFFF) ∧
    SpriteHits State.reset 62 31 5 63 31 ∧ ¬ SpriteHits State.reset 62 31 5 0 31 ∧
    SpriteHits { State.reset with params := ⟨.scan, .wrap⟩ } 62 31 5 0 31 := by
  refine ⟨by decide +kernel, by decide +kernel, by decide +kernel,
    ⟨0, 1, by decide +kernel, by decide +kernel, by decide +kernel, by decide +kernel⟩, ?_,
    ⟨0, 2, by decide +kernel, by decide +kernel, by decide +kernel, by decide +kernel⟩⟩
  rintro ⟨r, c, -, -, -, h⟩
  have h : lands .clip (62 + c) (31 + r) 0 31 = true := h
  simp [lands] at h

theorem witness_DrawingTwiceRestoresTheDisplay :
    ∃ s t u : State, (0x0 : Nibble) ≠ VF ∧ (0xE : Nibble) ≠ VF ∧ exec (.drw 0x0 0xE 5) s = .next t ∧
      exec (.drw 0x0 0xE 5) t = .next u ∧ t.disp ≠ s.disp :=
  ⟨State.reset, after (exec (.drw 0x0 0xE 5) State.reset),
    after (exec (.drw 0x0 0xE 5) (after (exec (.drw 0x0 0xE 5) State.reset))),
    by decide, by decide, exec_eq_next _ _, exec_eq_next _ _, by decide +kernel⟩

/-- Key 15 the highest, key 3 the highest, and no key in each mode. -/
theorem witness_KeyWaitInBothModes :
    ((press [3, 15] State.reset).keys[(15 : Fin 16)] = true ∧
      ∀ j : Fin 16, 15 < j → (press [3, 15] State.reset).keys[j] = false) ∧
    ((press [0, 3] State.reset).keys[(3 : Fin 16)] = true ∧
      ∀ j : Fin 16, 3 < j → (press [0, 3] State.reset).keys[j] = false) ∧
    (∀ k : Fin 16, State.reset.keys[k] = false) ∧ State.reset.params.keyWait = .scan ∧
    ({ State.reset with params := ⟨.block, .clip⟩ } : State).params.keyWait = .block := by decide +kernel

/-- The last I that fits, and the first that does not, for three bytes. -/
theorem witness_BcdStoresThreeDigits :
    Memory.wf State.reset.mem ∧ ({ State.reset with i := 0xFFD } : State).i.toNat + 2 ≤ 0xFFF ∧
    ({ State.reset with i := 0xFFE } : State).i.toNat + 2 > 0xFFF := by decide +kernel

/-- The last I that fits, and the first that does not, for one and for sixteen bytes; the last register stored. -/
theorem witness_StoreRegistersToMemory :
    Memory.wf State.reset.mem ∧ ({ State.reset with i := 0xFFF } : State).i.toNat + (0x0 : Nibble).toNat ≤ 0xFFF ∧
    ({ State.reset with i := 0x1000 } : State).i.toNat + (0x0 : Nibble).toNat > 0xFFF ∧
    ({ State.reset with i := 0xFF0 } : State).i.toNat + (0xF : Nibble).toNat ≤ 0xFFF ∧
    ({ State.reset with i := 0xFF1 } : State).i.toNat + (0xF : Nibble).toNat > 0xFFF ∧
    (0xF : Nibble).toNat ≤ (0xF : Nibble).toNat := by decide +kernel

/-- As for the stores, and the first register past X. -/
theorem witness_LoadRegistersFromMemory :
    ({ State.reset with i := 0xFFF } : State).i.toNat + (0x0 : Nibble).toNat ≤ 0xFFF ∧
    ({ State.reset with i := 0x1000 } : State).i.toNat + (0x0 : Nibble).toNat > 0xFFF ∧
    ({ State.reset with i := 0xFF0 } : State).i.toNat + (0xF : Nibble).toNat ≤ 0xFFF ∧
    ({ State.reset with i := 0xFF1 } : State).i.toNat + (0xF : Nibble).toNat > 0xFFF ∧
    (0x3 : Nibble).toNat ≤ (0x3 : Nibble).toNat ∧ (0x3 : Nibble).toNat < (0x4 : Nibble).toNat := by decide +kernel

/-- V0..VF at 0xFF0, and registers cleared before the load. -/
theorem witness_StoreThenLoadRoundTrips :
    ∃ s t v : State, Memory.wf s.mem ∧ s.i.toNat + (0xF : Nibble).toNat ≤ 0xFFF ∧ exec (.storeRegs 0xF) s = .next t ∧
      v.mem = t.mem ∧ v.i = s.i ∧ v.reg 0 ≠ s.reg 0 :=
  ⟨{ start 0x200 [(0, 0x11)] with i := 0xFF0 }, after (exec (.storeRegs 0xF) { start 0x200 [(0, 0x11)] with i := 0xFF0 }),
    { after (exec (.storeRegs 0xF) { start 0x200 [(0, 0x11)] with i := 0xFF0 }) with i := 0xFF0, v := Vector.replicate 16 0 },
    by decide +kernel, by decide +kernel, exec_eq_next _ _, by decide +kernel, by decide +kernel, by decide +kernel⟩

/-- The state of a machine at 0x200 with I = `i` and V0, V1 = 0x12, 0x34, the next instruction being at 0x202. -/
def storing (i : Word) (w : Nat) : State := { ((ready 0x200 w).setReg 0 0x12).setReg 1 0x34 with i := i }

/-- LD [I], V1 with both bytes of the next word inside the stored block, with its low edge and its high edge between them,
and outside; LD B over its own next word; a store that is a decode error; and the second clause, the two registers stored
being the word 1234. -/
theorem witness_StoredBytesAreFetchedNext :
    Memory.wf (storing 0x202 0xF155).mem ∧
    (∃ t, exec (.storeRegs 1) (storing 0x202 0xF155) = .next t ∧ t.pc.toNat = 0x202 ∧ t.loaded = true ∧
      t.halted = false ∧ t.pc.toNat ≤ 0xFFE ∧
      decode (wordOfBytes (byteAfter (.storeRegs 1) (storing 0x202 0xF155) t.pc.toNat)
        (byteAfter (.storeRegs 1) (storing 0x202 0xF155) (t.pc.toNat + 1))) = .op (.jp 0x234)) ∧
    (byteAfter (.storeRegs 1) (storing 0x203 0xF155) 0x202 = 0 ∧ byteAfter (.storeRegs 1) (storing 0x203 0xF155) 0x203 = 0x12) ∧
    (byteAfter (.storeRegs 1) (storing 0x201 0xF155) 0x202 = 0x34 ∧ byteAfter (.storeRegs 1) (storing 0x201 0xF155) 0x203 = 0) ∧
    byteAfter (.storeRegs 1) (storing 0x300 0xF155) 0x202 = 0 ∧
    (∃ t, exec (.ldB 1 3) (storing 0x201 0xF133) = .next t ∧ t.pc.toNat = 0x202) ∧
    (byteAfter (.ldB 1 3) (storing 0x201 0xF133) 0x202 = 5 ∧ byteAfter (.ldB 1 3) (storing 0x201 0xF133) 0x203 = 2) ∧
    byteAfter (.storeRegs 1) (storing 0xFFF 0xF155) 0xFFF = 0 := by
  refine ⟨by decide +kernel, ⟨_, exec_eq_next _ _, by decide +kernel, by decide +kernel, by decide +kernel, by decide +kernel,
    by decide +kernel⟩, by decide +kernel, by decide +kernel, by decide +kernel, ⟨_, exec_eq_next _ _, by decide +kernel⟩,
    by decide +kernel, by decide +kernel⟩

/-- A font and parameters other than the defaults; the last slot, cell and font byte, and the first byte past the font. -/
theorem witness_ConstructionState :
    (∃ s, s = State.construct (Vector.replicate 80 0xFF) ⟨.block, .wrap⟩) ∧ 15 < 16 ∧ 63 < 64 ∧ 31 < 32 ∧ 79 < 80 ∧
    0x50 ≤ 0x50 := ⟨⟨_, rfl⟩, by decide, by decide, by decide, by decide, by decide⟩

/-- Loaded already; one byte too many; the most bytes that fit. -/
theorem witness_LoadRomLoadsVerbatim :
    Memory.wf State.reset.mem ∧ ({ State.reset with loaded := true } : State).loaded = true ∧ State.reset.loaded = false ∧
    (List.replicate 3585 (0xFF : Byte)).length > 3584 ∧ (List.replicate 3584 (0xFF : Byte)).length ≤ 3584 := by
  refine ⟨by decide +kernel, rfl, rfl, by rw [List.length_replicate]; decide, by rw [List.length_replicate]⟩

/-- A second load leaves the host with the state it had. -/
theorem witness_HostTouchesOnlyItsState :
    ∀ t, hostStep (.loadRom []) { State.reset with loaded := true } ≠ .next t := by
  intro t h; cases h

end Sys2Proof.Tests
end

section
/-! PROOFS. The two outputs of a step, beep and diag, are written by the end of every step and read by none
(10_state.md R37). -/

namespace Sys2Proof.Machine

/-- The state with the outputs of the step before replaced by any others. -/
def State.withOutputs (s : State) (b : Bool) (d : Option Diag) : State := { s with beep := b, diag := d }

/-! ### The four ways a step ends overwrite both outputs -/

@[simp] theorem complete_withOutputs (adv : Advance) (s : State) (b : Bool) (d : Option Diag) :
    complete adv (s.withOutputs b d) = complete adv s := rfl

@[simp] theorem decodeError_withOutputs (c : DiagCode) (w : Word) (s : State) (b : Bool) (d : Option Diag) :
    decodeError c w (s.withOutputs b d) = decodeError c w s := rfl

@[simp] theorem fetchFault_withOutputs (s : State) (b : Bool) (d : Option Diag) :
    fetchFault (s.withOutputs b d) = fetchFault s := rfl

@[simp] theorem stuck_withOutputs (s : State) (b : Bool) (d : Option Diag) :
    stuck (s.withOutputs b d) = stuck s := rfl

/-! ### The operations that branch or recurse carry the outputs along -/

theorem push_withOutputs (s : State) (a : Word) (b : Bool) (d : Option Diag) :
    (s.withOutputs b d).push a = (s.push a).map (·.withOutputs b d) := by
  by_cases h : s.sp.val < 16
  · have hs : s.push a = some _ := dif_pos h
    rw [hs]; exact dif_pos h
  · have hs : s.push a = none := dif_neg h
    rw [hs]; exact dif_neg h

theorem pop_withOutputs (s : State) (b : Bool) (d : Option Diag) :
    (s.withOutputs b d).pop = s.pop.map (fun p => (p.1, p.2.withOutputs b d)) := by
  by_cases h : 0 < s.sp.val
  · have hs : s.pop = some _ := dif_pos h
    rw [hs]; exact dif_pos h
  · have hs : s.pop = none := dif_neg h
    rw [hs]; exact dif_neg h

theorem setRegs_withOutputs (s : State) (k : Nat) (bs : List Byte) (b : Bool) (d : Option Diag) :
    (s.withOutputs b d).setRegs k bs = (s.setRegs k bs).withOutputs b d := by
  induction bs generalizing s k with
  | nil => rfl
  | cons x xs ih => exact ih (s.setReg (BitVec.ofNat 4 k) x) (k + 1)

/-! ### Handlers -/

/-- RET: the popped address and state do not depend on the outputs, and each branch overwrites them. -/
theorem execRet_withOutputs (ign : Byte) (s : State) (b : Bool) (d : Option Diag) :
    execRet ign (s.withOutputs b d) = execRet ign s := by
  rw [execRet, execRet, pop_withOutputs]
  cases s.pop <;> rfl

theorem execCall_withOutputs (nnn : Addr) (s : State) (b : Bool) (d : Option Diag) :
    execCall nnn (s.withOutputs b d) = execCall nnn s := by
  have hpush : (s.withOutputs b d).push (s.withOutputs b d).pc = (s.push s.pc).map (·.withOutputs b d) :=
    push_withOutputs s s.pc b d
  rw [execCall, execCall, hpush]
  cases s.push s.pc <;> rfl

theorem execLoadRegs_withOutputs (x : Nibble) (s : State) (b : Bool) (d : Option Diag) :
    execLoadRegs x (s.withOutputs b d) = execLoadRegs x s := by
  rw [execLoadRegs, execLoadRegs, setRegs_withOutputs]; rfl

/-- Every other handler reads only fields that `withOutputs` keeps and ends in `complete` or `decodeError`. -/
theorem exec_withOutputs (i : Instr) (s : State) (b : Bool) (d : Option Diag) :
    exec i (s.withOutputs b d) = exec i s := by
  cases i with
  | ret ign => exact execRet_withOutputs ign s b d
  | call nnn => exact execCall_withOutputs nnn s b d
  | loadRegs x => exact execLoadRegs_withOutputs x s b d
  | _ => rfl

/-! ### The step -/

theorem step_withOutputs (s : State) (b : Bool) (d : Option Diag) : step (s.withOutputs b d) = step s := by
  have hword : (s.withOutputs b d).fetchWord = s.fetchWord := rfl
  have hfetch : (s.withOutputs b d).fetchOk = s.fetchOk := rfl
  have hloaded : (s.withOutputs b d).loaded = s.loaded := rfl
  have hhalted : (s.withOutputs b d).halted = s.halted := rfl
  simp only [step, hloaded, hhalted, hfetch, hword, exec_withOutputs, decodeError_withOutputs, fetchFault_withOutputs,
    stuck_withOutputs]

/-- Settles O12: each way a step ends overwrites both outputs, and no handler reads them on the way. -/
theorem outputsAreNeverRead : Obligations.OutputsAreNeverRead := by
  unfold Obligations.OutputsAreNeverRead
  exact step_withOutputs

end Sys2Proof.Machine
end

section
/-! PROOFS. What every instruction leaves in memory, byte by byte, and that the next fetch reads it (20_memory.md R58, R63,
D25). -/

namespace Sys2Proof.Machine

/-! ### The two ways a handler ends keep the memory they are given -/

theorem mem_of_complete {adv : Advance} {s u t : State} (h : complete adv u = .next t) (hu : u.mem = s.mem) :
    t.mem = s.mem := by
  cases h; exact hu

theorem mem_of_decodeError {c : DiagCode} {w : Word} {s t : State} (h : decodeError c w s = .next t) : t.mem = s.mem := by
  cases h; rfl

/-! ### Instructions that store nothing -/

/-- An instruction that may store to no address leaves memory as it was: its handler reports a decode error, or completes
with a state that differs from `s` in other fields only. -/
theorem exec_mem_of_no_store {i : Instr} {s t : State} (h : exec i s = .next t) (hno : ∀ a, mayStoreAt i s a = false) :
    t.mem = s.mem := by
  cases i with
  | ldB x ign => simpa [mayStoreAt] using hno s.i.toNat
  | storeRegs x => simpa [mayStoreAt] using hno s.i.toNat
  | ret ign =>
    obtain ⟨hp, -⟩ | ⟨u, hp, -, -, hu⟩ := pop_cases s <;> simp only [exec, execRet, hp] at h
    · exact mem_of_decodeError h
    · exact mem_of_complete h (by rw [hu])
  | call nnn =>
    obtain ⟨hp, -⟩ | ⟨u, hp, -, -, -, -, hu⟩ := push_cases s s.pc <;> simp only [exec, execCall, hp] at h
    · exact mem_of_decodeError h
    · exact mem_of_complete h (by rw [hu])
  | drw x y n =>
    simp only [exec, execDrw] at h
    split at h
    · exact mem_of_complete h rfl
    · exact mem_of_decodeError h
  | skp x ign =>
    simp only [exec, execSkp] at h
    split at h
    · exact mem_of_decodeError h
    · exact mem_of_complete h rfl
  | sknp x ign =>
    simp only [exec, execSknp] at h
    split at h
    · exact mem_of_decodeError h
    · exact mem_of_complete h rfl
  | ldVxK x ign =>
    simp only [exec, execLdVxK] at h
    split at h
    · exact mem_of_complete h rfl
    · split at h <;> exact mem_of_complete h rfl
  | loadRegs x =>
    simp only [exec, execLoadRegs] at h
    split at h
    · exact mem_of_complete h (setRegs_mem s 0 _)
    · exact mem_of_decodeError h
  | _ => cases h; rfl

theorem byteAfter_of_not_mayStoreAt {i : Instr} {s : State} {a : Nat} (h : mayStoreAt i s a = false) :
    byteAfter i s a = s.readByte a := if_neg (by simp [h])

/-- A decode error leaves every byte, as `byteAfter` says of an instruction with an error cause (R201). -/
theorem readByte_of_decodeError {i : Instr} {s t : State} {c : DiagCode} {w : Word} (h : decodeError c w s = .next t)
    (herr : errorCause i s = some c) (a : Nat) : t.readByte a = byteAfter i s a := by
  have hafter : byteAfter i s a = s.readByte a := if_neg (by simp [herr])
  rw [hafter, readByte_eq_of_mem_eq (mem_of_decodeError h)]

/-! ### Instructions that store a block at I -/

/-- After a block that fits is stored at I, each of its addresses reads as its byte, every other address as before. -/
theorem readByte_storeBlock {s : State} {xs : List Byte} (hwf : Memory.wf s.mem) (hfit : s.i.toNat + xs.length ≤ 0x1000)
    (a : Nat) : (s.storeBlock xs).readByte a =
      if h : s.i.toNat ≤ a ∧ a < s.i.toNat + xs.length then xs[a - s.i.toNat]'(by omega) else s.readByte a :=
  read_writeBytes xs s.mem s.i.toNat a hfit hwf

/-- The k-th byte LD B stores is the decimal digit of weight 10 ^ (2 - k); the hundreds of a byte are below 10 (R191). -/
theorem getElem_bcdDigits (v : Byte) (k : Nat) (h : k < (bcdDigits v).length) :
    (bcdDigits v)[k] = BitVec.ofNat 8 (v.toNat / 10 ^ (2 - k) % 10) := by
  have hhundreds : v.toNat / 100 % 10 = v.toNat / 100 := Nat.mod_eq_of_lt (by have := v.isLt; omega)
  match k, h with
  | 0, _ => simp [bcdDigits, hhundreds]
  | 1, _ => simp [bcdDigits]
  | 2, _ => simp [bcdDigits]

theorem exec_ldB_of_fit {s : State} (x ign : Nibble) (hfit : s.i.toNat + 3 ≤ 0x1000) :
    exec (.ldB x ign) s = complete .normal (s.storeBlock (bcdDigits (s.reg x))) :=
  if_pos ((blockOk_iff s 3).2 (.inr hfit))

theorem exec_ldB_of_not_fit {s : State} (x ign : Nibble) (hfit : ¬ s.i.toNat + 3 ≤ 0x1000) :
    exec (.ldB x ign) s = decodeError .memRange (encode (.ldB x ign)) s :=
  if_neg (by rw [blockOk_iff]; omega)

theorem exec_storeRegs_of_fit {s : State} (x : Nibble) (hfit : s.i.toNat + (x.toNat + 1) ≤ 0x1000) :
    exec (.storeRegs x) s =
      complete .normal ((s.storeBlock (s.firstRegs (x.toNat + 1))).advanceIndex (x.toNat + 1)) :=
  if_pos ((blockOk_iff s _).2 (.inr hfit))

theorem exec_storeRegs_of_not_fit {s : State} (x : Nibble) (hfit : ¬ s.i.toNat + (x.toNat + 1) ≤ 0x1000) :
    exec (.storeRegs x) s = decodeError .memRange (encode (.storeRegs x)) s :=
  if_neg (by rw [blockOk_iff]; omega)

/-- What LD B leaves where its three digits fit (R191). -/
theorem byteAfter_ldB {s : State} (x ign : Nibble) (hfit : s.i.toNat + 3 ≤ 0x1000) (a : Nat) :
    byteAfter (.ldB x ign) s a =
      if s.i.toNat ≤ a ∧ a < s.i.toNat + 3 then BitVec.ofNat 8 ((s.reg x).toNat / 10 ^ (s.i.toNat + 2 - a) % 10)
      else s.readByte a := by
  have hnone : errorCause (.ldB x ign) s = none := if_neg (by omega)
  have hstore : mayStoreAt (.ldB x ign) s a = true ↔ s.i.toNat ≤ a ∧ a < s.i.toNat + 3 := by
    simp only [mayStoreAt, Bool.and_eq_true, decide_eq_true_eq]; omega
  simp only [byteAfter, hnone, hstore, true_and]

/-- What LD [I], VX leaves where its X + 1 registers fit (R192). -/
theorem byteAfter_storeRegs {s : State} (x : Nibble) (hfit : s.i.toNat + (x.toNat + 1) ≤ 0x1000) (a : Nat) :
    byteAfter (.storeRegs x) s a =
      if s.i.toNat ≤ a ∧ a < s.i.toNat + (x.toNat + 1) then s.reg (BitVec.ofNat 4 (a - s.i.toNat)) else s.readByte a := by
  have hnone : errorCause (.storeRegs x) s = none := if_neg (by omega)
  have hstore : mayStoreAt (.storeRegs x) s a = true ↔ s.i.toNat ≤ a ∧ a < s.i.toNat + (x.toNat + 1) := by
    simp only [mayStoreAt, Bool.and_eq_true, decide_eq_true_eq]; omega
  simp only [byteAfter, hnone, hstore, true_and]

theorem readByte_exec_ldB {x ign : Nibble} {s t : State} (hwf : Memory.wf s.mem) (h : exec (.ldB x ign) s = .next t)
    (a : Nat) : t.readByte a = byteAfter (.ldB x ign) s a := by
  by_cases hfit : s.i.toNat + 3 ≤ 0x1000
  · rw [exec_ldB_of_fit x ign hfit] at h
    rw [readByte_eq_of_mem_eq (mem_of_complete h rfl), readByte_storeBlock (xs := bcdDigits (s.reg x)) hwf hfit,
      byteAfter_ldB x ign hfit]
    refine dite_congr rfl (fun hin => ?_) fun _ => rfl
    rw [getElem_bcdDigits, show 2 - (a - s.i.toNat) = s.i.toNat + 2 - a by have := hin.1; omega]
  · have herr : errorCause (.ldB x ign) s = some .memRange := if_pos (by omega)
    rw [exec_ldB_of_not_fit x ign hfit] at h
    exact readByte_of_decodeError h herr a

theorem readByte_exec_storeRegs {x : Nibble} {s t : State} (hwf : Memory.wf s.mem) (h : exec (.storeRegs x) s = .next t)
    (a : Nat) : t.readByte a = byteAfter (.storeRegs x) s a := by
  by_cases hfit : s.i.toNat + (x.toNat + 1) ≤ 0x1000
  · have hlen : (s.firstRegs (x.toNat + 1)).length = x.toNat + 1 := length_firstRegs s _ x.isLt
    rw [exec_storeRegs_of_fit x hfit] at h
    rw [readByte_eq_of_mem_eq (mem_of_complete h rfl), readByte_advanceIndex, readByte_storeBlock hwf (by rwa [hlen]),
      byteAfter_storeRegs x hfit]
    exact dite_congr (by rw [hlen]) (fun _ => getElem_firstRegs s _ _ _) fun _ => rfl
  · have herr : errorCause (.storeRegs x) s = some .memRange := if_pos (by omega)
    rw [exec_storeRegs_of_not_fit x hfit] at h
    exact readByte_of_decodeError h herr a

/-! ### Every instruction, and the next fetch -/

/-- After every instruction each address reads as `byteAfter` says. -/
theorem readByte_exec {i : Instr} {s t : State} (hwf : Memory.wf s.mem) (h : exec i s = .next t) (a : Nat) :
    t.readByte a = byteAfter i s a := by
  cases i with
  | ldB x ign => exact readByte_exec_ldB hwf h a
  | storeRegs x => exact readByte_exec_storeRegs hwf h a
  | _ =>
    rw [readByte_eq_of_mem_eq (exec_mem_of_no_store h fun _ => rfl)]
    exact (byteAfter_of_not_mayStoreAt rfl).symm

/-- The word at the new pc is made of the two bytes that the instruction left there. -/
theorem fetchWord_exec {i : Instr} {s t : State} (hwf : Memory.wf s.mem) (h : exec i s = .next t) :
    t.fetchWord = wordOfBytes (byteAfter i s t.pc.toNat) (byteAfter i s (t.pc.toNat + 1)) := by
  rw [State.fetchWord, readByte_exec hwf h, readByte_exec hwf h]

/-- Settles O50: each byte reads as the instruction left it, so the next fetch does, and the step runs what it decodes to. -/
theorem storedBytesAreFetchedNext : Obligations.StoredBytesAreFetchedNext := by
  unfold Obligations.StoredBytesAreFetchedNext
  intro i s t hwf h
  have hword := fetchWord_exec hwf h
  refine ⟨hword, fun j hl hh hp hdec => ?_⟩
  rw [step_eq_decoded hl hh hp, hword, hdec]

end Sys2Proof.Machine
end

section
/-! PROOFS. The reserved words (30_encoding.md R86): the words for which a decode table has no entry, and that a step on one
of them is a reported no-op (R81). -/

namespace Sys2Proof.Machine

/-! ### The keys of each table that have no entry -/

/-- R75: the row SYS takes every key of table T0 but those of CLS and RET. -/
theorem unrecognizedBy_decodeT0 (w : Word) :
    unrecognizedBy (decodeT0 w) = !([0x0, 0xE].contains (fieldN w).toNat) := by
  unfold decodeT0
  split
  case h_3 h0 hE => simpa [unrecognizedBy] using ⟨h0, hE⟩
  all_goals next h => rw [h]; rfl

/-- T8 has entries for the nine operations of R76 only. -/
theorem unrecognizedBy_decodeT8 (w : Word) :
    unrecognizedBy (decodeT8 w) = [0x8, 0x9, 0xA, 0xB, 0xC, 0xD, 0xF].contains (fieldN w).toNat := by
  have hlt := (fieldN w).isLt
  unfold decodeT8
  split
  case h_10 =>
    simp only [imp_false] at *
    have hk : [0x8, 0x9, 0xA, 0xB, 0xC, 0xD, 0xF].contains (fieldN w).toNat = true := by
      rw [List.contains_iff_mem]; simp only [List.mem_cons, List.not_mem_nil]; omega
    rw [hk]; rfl
  all_goals next h => rw [h]; rfl

/-- TE has the two key skips only (R77). -/
theorem unrecognizedBy_decodeTE (w : Word) :
    unrecognizedBy (decodeTE w) = !([0x1, 0xE].contains (fieldN w).toNat) := by
  unfold decodeTE
  split
  case h_3 hE h1 => simpa [unrecognizedBy] using ⟨h1, hE⟩
  all_goals next h => rw [h]; rfl

/-- TF5 is the one table keyed by n1 (R79). -/
theorem unrecognizedBy_decodeTF5 (w : Word) :
    unrecognizedBy (decodeTF5 w) = !([0x1, 0x5, 0x6].contains (fieldY w).toNat) := by
  unfold decodeTF5
  split
  case h_4 h1 h5 h6 => simpa [unrecognizedBy] using ⟨h1, h5, h6⟩
  all_goals next h => rw [h]; rfl

/-- TF hands key 5 on to table TF5 (R78). -/
theorem unrecognizedBy_decodeTF (w : Word) :
    unrecognizedBy (decodeTF w) =
      ([0x0, 0x1, 0x2, 0x4, 0x6, 0xB, 0xC, 0xD, 0xF].contains (fieldN w).toNat ||
        (fieldN w).toNat == 0x5 && !([0x1, 0x5, 0x6].contains (fieldY w).toNat)) := by
  have hlt := (fieldN w).isLt
  unfold decodeTF
  split
  case h_2 h => rw [h, unrecognizedBy_decodeTF5]; rfl
  case h_8 =>
    simp only [imp_false] at *
    have hk : [0x0, 0x1, 0x2, 0x4, 0x6, 0xB, 0xC, 0xD, 0xF].contains (fieldN w).toNat = true := by
      rw [List.contains_iff_mem]; simp only [List.mem_cons, List.not_mem_nil]; omega
    rw [hk]; rfl
  all_goals next h => rw [h]; rfl

/-! ### The reserved words -/

theorem toNat_div_eq_fieldN3 (w : Word) : w.toNat / 0x1000 = (fieldN3 w).toNat := by
  have := w.isLt
  rw [fieldN3_toNat]; omega

/-- The words that the decoder answers as UNRECOGNIZED are those that R86 lists: a primary key with no secondary table has an
entry (R74), and each secondary table lacks the keys above. -/
theorem unrecognizedBy_decode (w : Word) : unrecognizedBy (decode w) = reservedWord w := by
  have hlt := (fieldN3 w).isLt
  unfold decode reservedWord
  rw [toNat_div_eq_fieldN3, ← fieldY_toNat, ← fieldN_toNat]
  split
  case h_1 h => simp [h, unrecognizedBy_decodeT0]
  case h_9 h => simp [h, unrecognizedBy_decodeT8]
  case h_15 h => simp [h, unrecognizedBy_decodeTE]
  case h_16 =>
    have h : (fieldN3 w).toNat = 0xF := by simp only [imp_false] at *; omega
    simp [h, unrecognizedBy_decodeTF]
  all_goals next h => rw [h]; rfl

/-! ### A step on a reserved word -/

theorem unrecognizedBy_cases {d : Decoded} (h : unrecognizedBy d = true) :
    (∃ t, d = .unrecognized t) ∨ ∃ nnn, d = .op (.sys nnn) := by
  cases d with
  | unrecognized t => exact .inl ⟨t, rfl⟩
  | op i => cases i with
    | sys nnn => exact .inr ⟨nnn, rfl⟩
    | _ => cases h

/-- Only table T0 answers SYS, and it takes the whole operand. -/
theorem decode_eq_sys {w : Word} {nnn : Addr} (h : decode w = .op (.sys nnn)) :
    (fieldN3 w).toNat = 0 ∧ nnn = fieldNNN w := by
  unfold decode at h
  split at h
  case h_1 h0 => unfold decodeT0 at h; split at h <;> cases h; exact ⟨h0, rfl⟩
  case h_9 => unfold decodeT8 at h; split at h <;> cases h
  case h_15 => unfold decodeTE at h; split at h <;> cases h
  case h_16 =>
    unfold decodeTF at h
    split at h
    case h_2 => unfold decodeTF5 at h; split at h <;> cases h
    all_goals cases h
  all_goals cases h

/-- A SYS term is written back as the word it was read from. -/
theorem encode_sys_of_decode {w : Word} {nnn : Addr} (h : decode w = .op (.sys nnn)) : encode (.sys nnn) = w := by
  obtain ⟨htop, rfl⟩ := decode_eq_sys h
  have hword : (encode (.sys (fieldNNN w))).toNat = 0 * 4096 + (fieldNNN w).toNat := toNat_word_addr 0x0 (fieldNNN w)
  have hlt := w.isLt
  rw [fieldN3_toNat] at htop
  rw [fieldNNN_toNat] at hword
  apply BitVec.eq_of_toNat_eq
  omega

/-- The two ways a reserved word can be answered, by no table and by the row SYS, step alike (log 1). -/
theorem step_of_reservedWord {s : State} (hl : s.loaded = true) (hh : s.halted = false) (hp : s.pc.toNat ≤ 0xFFE)
    (hres : reservedWord s.fetchWord = true) : step s = decodeError .unrecognized s.fetchWord s := by
  rw [← unrecognizedBy_decode] at hres
  rw [step_eq_decoded hl hh hp]
  obtain ⟨t, hdec⟩ | ⟨nnn, hdec⟩ := unrecognizedBy_cases hres
  · rw [hdec]
  · have hexec : exec (.sys nnn) s = decodeError .unrecognized (encode (.sys nnn)) s := rfl
    rw [hdec]
    exact hexec.trans (by rw [encode_sys_of_decode hdec])

/-- Settles O3: the decoder leaves unrecognized the words of R86's list, and such a step is the shared decode error. -/
theorem reservedWordsAreReportedNoOps : Obligations.ReservedWordsAreReportedNoOps := by
  unfold Obligations.ReservedWordsAreReportedNoOps
  refine ⟨unrecognizedBy_decode, fun s hl hh hp hres => ?_⟩
  rw [step_of_reservedWord hl hh hp hres]
  exact decodeError_spec .unrecognized s.fetchWord s

end Sys2Proof.Machine
end

section
/-! PROOFS. JP and RET (41_control_flow.md R120, R122): the words that decode to them, where pc goes, and the frame. -/

namespace Sys2Proof.Machine

/-! ### The end of a step that jumps -/

/-- With no write by the handler, a step writes timers, pc and outputs only. -/
theorem onlyRegs_endStep (ks : List Nibble) (adv : Advance) (d : Option Diag) (s : State) :
    OnlyRegs ks s (endStep adv d s) :=
  ⟨fun _ _ => rfl, rfl, fun _ => rfl, ⟨rfl, rfl⟩, ⟨rfl, rfl⟩, ⟨rfl, rfl, rfl, rfl, rfl⟩⟩

/-- A jump target is truncated to 16 bits and replaces pc (R105). -/
theorem endStep_jump_pc_toNat (n : Nat) (d : Option Diag) (s : State) :
    (endStep (.jump n) d s).pc.toNat = n % 0x10000 :=
  nextPc_jump_toNat s.pc n

/-! ### JP -/

theorem decode_jp (nnn : Addr) : decode (0x1#4 ++ nnn) = .op (.jp nnn) := by
  simp [decode]

theorem exec_jp (nnn : Addr) (s : State) : exec (.jp nnn) s = .next (endStep (.jump nnn.toNat) none s) := rfl

/-- Settles O23: a 12-bit target is not truncated, and the handler writes nothing of its own. -/
theorem jumpSetsPc : Obligations.JumpSetsPc := by
  unfold Obligations.JumpSetsPc
  refine fun nnn => ⟨decode_jp nnn, fun s =>
    ⟨_, exec_jp nnn s, ?_, onlyRegs_endStep _ _ _ s, ticked_endStep _ _ rfl rfl, rfl⟩⟩
  have hsmall : nnn.toNat < 0x10000 := by have := nnn.isLt; omega
  rw [endStep_jump_pc_toNat, Nat.mod_eq_of_lt hsmall]

/-! ### RET -/

/-- Table T0 reads RET from the low nibble alone (R75). -/
theorem decode_ret (ign : Byte) : decode (0x0#4 ++ ign ++ 0xE#4) = .op (.ret ign) := by
  simp [decode, decodeT0]

/-- RET with an occupied slot counts one slot less, writes nothing else, and jumps past the CALL it finds there. -/
theorem exec_ret_of_occupied (ign : Byte) {s : State} (h : 0 < s.sp.val) :
    ∃ p : Fin 17, p.val = s.sp.val - 1 ∧
      exec (.ret ign) s = complete (.jump ((s.slot (s.sp.val - 1)).toNat + 2)) { s with sp := p } := by
  obtain ⟨-, hempty⟩ | ⟨u, hpop, -, hsp, hu⟩ := pop_cases s
  · omega
  · exact ⟨u.sp, hsp, by simp only [exec, execRet, hpop]; rw [← hu]⟩

theorem exec_ret_of_empty (ign : Byte) {s : State} (h : s.sp.val = 0) :
    exec (.ret ign) s = decodeError .stackUnderflow (0x0#4 ++ ign ++ 0xE#4) s := by
  obtain ⟨hpop, -⟩ | ⟨u, -, hpos, -, -⟩ := pop_cases s
  · simp only [exec, execRet, hpop]; rfl
  · omega

/-- Settles O26: a pop finds an occupied slot and counts it off, or finds none and RET is the shared decode error. -/
theorem retResumesPastTheCall : Obligations.RetResumesPastTheCall := by
  unfold Obligations.RetResumesPastTheCall
  refine fun ign => ⟨decode_ret ign, fun s => ⟨fun hocc => ?_, fun hempty => ?_⟩⟩
  · obtain ⟨p, hp, hexec⟩ := exec_ret_of_occupied ign hocc
    obtain ⟨hregs, hi, hmem, -, hdisp, hhost⟩ := onlyRegs_endStep [] (.jump _) none { s with sp := p }
    exact ⟨_, hexec, hp, rfl, endStep_jump_pc_toNat _ _ _, hregs, hi, hmem, hdisp, hhost,
      ticked_endStep _ _ rfl rfl, rfl⟩
  · rw [exec_ret_of_empty ign hempty]
    exact decodeError_spec .stackUnderflow _ s

end Sys2Proof.Machine
end

section
/-! PROOFS. SE and SNE (42_conditional_skip.md R130 to R133): the words that decode to them, and what a step that may skip
does for either value of its condition. -/

namespace Sys2Proof.Machine

/-! ### The end of a step that may skip -/

/-- The Skip outcome moves pc on by 4 and ends the step as Normal does otherwise (R104). -/
theorem endsNormally_skip (s : State) : EndsNormally 4 s (endStep .skip none s) :=
  ⟨nextPc_skip_toNat s.pc, ticked_endStep _ _ rfl rfl, rfl⟩

/-- Everything a skip does for a condition `c`: it writes nothing, and pc moves on by 4 or by 2. -/
theorem complete_skipIf_spec (c : Bool) (s : State) :
    ∃ t, complete (skipIf c) s = .next t ∧ OnlyRegs [] s t ∧
      (c = true → EndsNormally 4 s t) ∧ (c = false → EndsNormally 2 s t) := by
  refine ⟨endStep (skipIf c) none s, rfl, onlyRegs_endStep [] _ none s, ?_, ?_⟩
  · rintro rfl; exact endsNormally_skip s
  · rintro rfl; exact endsNormally_normal rfl rfl rfl

/-- A skip on equality of two bytes. -/
theorem complete_skipIf_beq_spec (a b : Byte) (s : State) :
    ∃ t, complete (skipIf (a == b)) s = .next t ∧ OnlyRegs [] s t ∧
      (a = b → EndsNormally 4 s t) ∧ (a ≠ b → EndsNormally 2 s t) := by
  simpa only [beq_iff_eq, beq_eq_false_iff_ne] using complete_skipIf_spec (a == b) s

/-- A skip on difference of two bytes. -/
theorem complete_skipIf_bne_spec (a b : Byte) (s : State) :
    ∃ t, complete (skipIf (a != b)) s = .next t ∧ OnlyRegs [] s t ∧
      (a ≠ b → EndsNormally 4 s t) ∧ (a = b → EndsNormally 2 s t) := by
  simpa only [bne_iff_ne, bne_eq_false_iff_eq] using complete_skipIf_spec (a != b) s

/-! ### SE and SNE with a byte -/

theorem decode_seImm (x : Nibble) (nn : Byte) : decode (0x3#4 ++ x ++ nn) = .op (.seImm x nn) := by
  simp [decode]

theorem decode_sneImm (x : Nibble) (nn : Byte) : decode (0x4#4 ++ x ++ nn) = .op (.sneImm x nn) := by
  simp [decode]

theorem exec_seImm (x : Nibble) (nn : Byte) (s : State) :
    exec (.seImm x nn) s = complete (skipIf (s.reg x == nn)) s := rfl

theorem exec_sneImm (x : Nibble) (nn : Byte) (s : State) :
    exec (.sneImm x nn) s = complete (skipIf (s.reg x != nn)) s := rfl

/-- Settles O29: SE skips on the equality of V[X] and the byte, SNE on their difference. -/
theorem skipOnByte : Obligations.SkipOnByte := by
  unfold Obligations.SkipOnByte
  refine fun x nn => ⟨decode_seImm x nn, decode_sneImm x nn, fun s => ⟨?_, ?_⟩⟩
  · rw [exec_seImm]; exact complete_skipIf_beq_spec (s.reg x) nn s
  · rw [exec_sneImm]; exact complete_skipIf_bne_spec (s.reg x) nn s

/-! ### SE and SNE of two registers -/

/-- No secondary table examines the low nibble (R85). -/
theorem decode_seReg (x y ign : Nibble) : decode (0x5#4 ++ x ++ y ++ ign) = .op (.seReg x y ign) := by
  simp [decode]

/-- As for SE, the low nibble is not examined (R85). -/
theorem decode_sneReg (x y ign : Nibble) : decode (0x9#4 ++ x ++ y ++ ign) = .op (.sneReg x y ign) := by
  simp [decode]

theorem exec_seReg (x y ign : Nibble) (s : State) :
    exec (.seReg x y ign) s = complete (skipIf (s.reg x == s.reg y)) s := rfl

theorem exec_sneReg (x y ign : Nibble) (s : State) :
    exec (.sneReg x y ign) s = complete (skipIf (s.reg x != s.reg y)) s := rfl

/-- Settles O30: the skips of O29 with V[Y] in place of the byte, for every low nibble. -/
theorem skipOnRegister : Obligations.SkipOnRegister := by
  unfold Obligations.SkipOnRegister
  refine fun x y ign => ⟨decode_seReg x y ign, decode_sneReg x y ign, fun s => ⟨?_, ?_⟩⟩
  · rw [exec_seReg]; exact complete_skipIf_beq_spec (s.reg x) (s.reg y) s
  · rw [exec_sneReg]; exact complete_skipIf_bne_spec (s.reg x) (s.reg y) s

end Sys2Proof.Machine
end

section
/-! PROOFS. ADD, SUB and SUBN (43_alu.md R145, R146, R148): the sum or the difference as a number, the flag as a comparison,
and what a step does that writes a flag and then a result. -/

namespace Sys2Proof.Machine

/-! ### A step that writes a flag and then a result -/

/-- The result is what V[X] holds, with X = F too; the flag stays for any other X; nothing else is written (R25, R140). -/
theorem complete_setFlagReg_spec (s : State) (x : Nibble) (f b : Byte) :
    ∃ t, complete .normal (s.setFlagReg x f b) = .next t ∧ t.reg x = b ∧ (x ≠ VF → t.reg VF = f) ∧
      OnlyRegs [x, VF] s t ∧ EndsNormally 2 s t := by
  refine ⟨endStep .normal none (s.setFlagReg x f b), rfl, ?_, fun hx => ?_, ⟨fun k hk => ?_, rfl, fun _ => rfl,
    ⟨rfl, rfl⟩, ⟨rfl, rfl⟩, ⟨rfl, rfl, rfl, rfl, rfl⟩⟩, endsNormally_normal rfl rfl rfl⟩
  · rw [reg_endStep, reg_setFlagReg, if_pos rfl]
  · rw [reg_endStep, reg_setFlagReg, if_neg hx.symm, if_pos rfl]
  · obtain ⟨hkx, hkf⟩ : k ≠ x ∧ k ≠ VF := by simpa using hk
    rw [reg_endStep, reg_setFlagReg, if_neg hkx, if_neg hkf]

/-! ### ADD -/

theorem sum8_toNat (a b : Byte) : (sum8 a b).toNat = (a.toNat + b.toNat) % 256 :=
  BitVec.toNat_ofNat _ 8

theorem carryFlag_eq (a b : Byte) : carryFlag a b = if a.toNat + b.toNat > 255 then 1 else 0 := by
  simp [carryFlag, flagOf]

theorem decode_addReg (x y : Nibble) : decode (0x8#4 ++ x ++ y ++ 0x4#4) = .op (.addReg x y) := by
  simp [decode, decodeT8]

theorem exec_addReg (x y : Nibble) (s : State) : exec (.addReg x y) s =
    complete .normal (s.setFlagReg x (carryFlag (s.reg x) (s.reg y)) (sum8 (s.reg x) (s.reg y))) := rfl

/-- Settles O33: the flag is the carry of the exact sum, and the wrapped sum is written after it. -/
theorem addSetsCarry : Obligations.AddSetsCarry := by
  unfold Obligations.AddSetsCarry
  refine fun x y => ⟨decode_addReg x y, fun s => ?_⟩
  obtain ⟨t, hexec, hres, hflag, hframe⟩ :=
    complete_setFlagReg_spec s x (carryFlag (s.reg x) (s.reg y)) (sum8 (s.reg x) (s.reg y))
  refine ⟨t, by rw [exec_addReg, hexec], ?_, fun hx => ?_, hframe⟩
  · rw [hres, sum8_toNat]
  · rw [hflag hx, carryFlag_eq]

/-! ### SUB and SUBN -/

/-- The 8-bit difference is the exact one modulo 256: the 256 that keeps `diff8` above zero does not count. -/
theorem diff8_toNat (a b : Byte) : ((diff8 a b).toNat : Int) = ((a.toNat : Int) - b.toNat) % 256 := by
  have hnat : (diff8 a b).toNat = (a.toNat + 256 - b.toNat) % 256 := BitVec.toNat_ofNat _ 8
  have hb := b.isLt
  omega

theorem noBorrowFlag_eq (a b : Byte) : noBorrowFlag a b = if b.toNat > a.toNat then 0 else 1 := by
  by_cases h : b.toNat > a.toNat <;> simp [noBorrowFlag, flagOf, h]

/-- A step that subtracts: the wrapped difference in V[X], written after the NOT borrow flag. SUB and SUBN are this step
with the operands in either order. -/
theorem complete_difference_spec (s : State) (x : Nibble) (a b : Byte) :
    ∃ t, complete .normal (s.setFlagReg x (noBorrowFlag a b) (diff8 a b)) = .next t ∧
      ((t.reg x).toNat : Int) = ((a.toNat : Int) - b.toNat) % 256 ∧
      (x ≠ VF → t.reg VF = if b.toNat > a.toNat then 0 else 1) ∧ OnlyRegs [x, VF] s t ∧ EndsNormally 2 s t := by
  obtain ⟨t, hexec, hres, hflag, hframe⟩ := complete_setFlagReg_spec s x (noBorrowFlag a b) (diff8 a b)
  refine ⟨t, hexec, ?_, fun hx => ?_, hframe⟩
  · rw [hres, diff8_toNat]
  · rw [hflag hx, noBorrowFlag_eq]

theorem decode_subReg (x y : Nibble) : decode (0x8#4 ++ x ++ y ++ 0x5#4) = .op (.subReg x y) := by
  simp [decode, decodeT8]

theorem decode_subnReg (x y : Nibble) : decode (0x8#4 ++ x ++ y ++ 0x7#4) = .op (.subnReg x y) := by
  simp [decode, decodeT8]

theorem exec_subReg (x y : Nibble) (s : State) : exec (.subReg x y) s =
    complete .normal (s.setFlagReg x (noBorrowFlag (s.reg x) (s.reg y)) (diff8 (s.reg x) (s.reg y))) := rfl

theorem exec_subnReg (x y : Nibble) (s : State) : exec (.subnReg x y) s =
    complete .normal (s.setFlagReg x (noBorrowFlag (s.reg y) (s.reg x)) (diff8 (s.reg y) (s.reg x))) := rfl

/-- Settles O34: SUB takes V[Y] from V[X], SUBN takes V[X] from V[Y]. -/
theorem subtractionsSetNoBorrow : Obligations.SubtractionsSetNoBorrow := by
  unfold Obligations.SubtractionsSetNoBorrow
  refine fun x y => ⟨decode_subReg x y, decode_subnReg x y, fun s => ⟨?_, ?_⟩⟩
  · rw [exec_subReg]; exact complete_difference_spec s x (s.reg x) (s.reg y)
  · rw [exec_subnReg]; exact complete_difference_spec s x (s.reg y) (s.reg x)

end Sys2Proof.Machine
end

section
/-! PROOFS. LD VX, NN, ADD VX, NN and LD I, NNN (44_immediate_index_random.md R160 to R162): the words that decode to them, and
what a step does that writes one register or I and nothing else. -/

namespace Sys2Proof.Machine

/-! ### A step that writes one register -/

/-- V[X] holds the byte, for X = F too, and nothing else is written: no flag. -/
theorem complete_setReg_spec (s : State) (x : Nibble) (b : Byte) :
    ∃ t, complete .normal (s.setReg x b) = .next t ∧ t.reg x = b ∧ OnlyRegs [x] s t ∧ EndsNormally 2 s t := by
  refine ⟨endStep .normal none (s.setReg x b), rfl, ?_, ⟨fun k hk => ?_, rfl, fun _ => rfl,
    ⟨rfl, rfl⟩, ⟨rfl, rfl⟩, ⟨rfl, rfl, rfl, rfl, rfl⟩⟩, endsNormally_normal rfl rfl rfl⟩
  · rw [reg_endStep, reg_setReg_same]
  · rw [reg_endStep, reg_setReg_of_ne s b (List.ne_of_not_mem_cons hk)]

/-! ### LD and ADD with a byte -/

theorem decode_ldImm (x : Nibble) (nn : Byte) : decode (0x6#4 ++ x ++ nn) = .op (.ldImm x nn) := by
  simp [decode]

theorem decode_addImm (x : Nibble) (nn : Byte) : decode (0x7#4 ++ x ++ nn) = .op (.addImm x nn) := by
  simp [decode]

theorem exec_ldImm (x : Nibble) (nn : Byte) (s : State) :
    exec (.ldImm x nn) s = complete .normal (s.setReg x nn) := rfl

theorem exec_addImm (x : Nibble) (nn : Byte) (s : State) :
    exec (.addImm x nn) s = complete .normal (s.setReg x (sum8 (s.reg x) nn)) := rfl

/-- Settles O36: each is a step that writes V[X] alone, LD the byte and ADD the wrapped sum. -/
theorem immediateLoadAndAdd : Obligations.ImmediateLoadAndAdd := by
  unfold Obligations.ImmediateLoadAndAdd
  refine fun x nn => ⟨decode_ldImm x nn, decode_addImm x nn, fun s => ⟨?_, ?_⟩⟩
  · rw [exec_ldImm]; exact complete_setReg_spec s x nn
  · obtain ⟨t, hexec, hres, hframe⟩ := complete_setReg_spec s x (sum8 (s.reg x) nn)
    exact ⟨t, by rw [exec_addImm, hexec], by rw [hres, sum8_toNat], hframe⟩

/-! ### A step that writes I -/

/-- I holds the word, and nothing else is written. -/
theorem complete_setIndex_spec (s : State) (w : Word) :
    ∃ t, complete .normal (s.setIndex w) = .next t ∧ t.i = w ∧ SameRegsBut [] s t ∧ SameMem s t ∧ SameStack s t ∧
      SameDisplay s t ∧ SameHostSide s t ∧ EndsNormally 2 s t :=
  ⟨endStep .normal none (s.setIndex w), rfl, rfl, fun _ _ => rfl, fun _ => rfl, ⟨rfl, rfl⟩, ⟨rfl, rfl⟩,
    ⟨rfl, rfl, rfl, rfl, rfl⟩, endsNormally_normal rfl rfl rfl⟩

/-! ### LD I -/

theorem decode_ldI (nnn : Addr) : decode (0xA#4 ++ nnn) = .op (.ldI nnn) := by
  simp [decode]

theorem exec_ldI (nnn : Addr) (s : State) : exec (.ldI nnn) s = complete .normal (s.setIndex (nnn.setWidth 16)) := rfl

/-- Settles O37: the step writes I alone, and the 12-bit literal keeps its value in the 16 bits of I. -/
theorem loadIndexSetsI : Obligations.LoadIndexSetsI := by
  unfold Obligations.LoadIndexSetsI
  refine fun nnn => ⟨decode_ldI nnn, fun s => ?_⟩
  obtain ⟨t, hexec, hi, hframe⟩ := complete_setIndex_spec s (nnn.setWidth 16)
  have hwiden : (nnn.setWidth 16).toNat = nnn.toNat := BitVec.toNat_setWidth_of_le (by decide)
  exact ⟨t, by rw [exec_ldI, hexec], by rw [hi, hwiden], hframe⟩

end Sys2Proof.Machine
end

section
/-! PROOFS. CLS (45_display.md R170): the words that decode to it, and what a step does that writes the display and dirty. -/

namespace Sys2Proof.Machine

/-! ### A step that writes the display -/

/-- The display holds the new buffer, marked dirty, and nothing else is written. -/
theorem complete_setDisplay_spec (s : State) (d : Display) :
    ∃ t, complete .normal { s with disp := d, dirty := true } = .next t ∧ t.disp = d ∧ t.dirty = true ∧
      SameRegsBut [] s t ∧ t.i = s.i ∧ SameMem s t ∧ SameStack s t ∧ SameHostSide s t ∧ EndsNormally 2 s t :=
  ⟨endStep .normal none { s with disp := d, dirty := true }, rfl, rfl, rfl, fun _ _ => rfl, rfl, fun _ => rfl,
    ⟨rfl, rfl⟩, ⟨rfl, rfl, rfl, rfl, rfl⟩, endsNormally_normal rfl rfl rfl⟩

/-! ### CLS -/

@[simp] theorem cell_zero (x y : Nat) : Display.cell 0 x y = false := BitVec.getLsbD_zero

theorem decode_cls (ign : Byte) : decode (0x0#4 ++ ign ++ 0x0#4) = .op (.cls ign) := by
  simp [decode, decodeT0]

theorem exec_cls (ign : Byte) (s : State) :
    exec (.cls ign) s = complete .normal { s with disp := 0, dirty := true } := rfl

/-- Settles O41: the step writes the display and dirty alone, and every cell of the zero buffer is 0. -/
theorem clsClearsEveryCell : Obligations.ClsClearsEveryCell := by
  unfold Obligations.ClsClearsEveryCell
  refine fun ign => ⟨decode_cls ign, fun s => ?_⟩
  obtain ⟨t, hexec, hdisp, hframe⟩ := complete_setDisplay_spec s 0
  exact ⟨t, by rw [exec_cls, hexec], fun x y _ _ => by rw [hdisp, cell_zero], hframe⟩

end Sys2Proof.Machine
end

section
/-! PROOFS. LD VX, DT, LD DT, VX and LD ST, VX (46_keys_timers.md R183 to R185): the words that decode to them, and what a step
does that writes the timers before its own tick. -/

namespace Sys2Proof.Machine

/-! ### A step that writes the timers -/

/-- The tick and the beep of the step find the values just written, and nothing else is written (R108). -/
theorem complete_setTimers_spec (s : State) (d e : Byte) :
    ∃ t, complete .normal { s with dt := d, st := e } = .next t ∧ OnlyRegs [] s t ∧ PcPlus 2 s t ∧ t.diag = none ∧
      TickedFrom d t.dt ∧ TickedFrom e t.st ∧ (t.beep = true ↔ e.toNat = 1) :=
  ⟨endStep .normal none { s with dt := d, st := e }, rfl, onlyRegs_endStep [] .normal none { s with dt := d, st := e },
    nextPc_normal_toNat s.pc, rfl, tick_toNat d, tick_toNat e, beeps_iff e⟩

/-! ### The three transfers -/

theorem decode_ldVxDt (x ign : Nibble) : decode (0xF#4 ++ x ++ ign ++ 0x7#4) = .op (.ldVxDt x ign) := by
  simp [decode, decodeTF]

/-- The only one of the three with a tertiary key: table TF5 reads LD DT, VX from both low nibbles (R79). -/
theorem decode_ldDtVx (x : Nibble) : decode (0xF#4 ++ x ++ 0x15#8) = .op (.ldDtVx x) := by
  simp [decode, decodeTF, decodeTF5, fieldN_imm_toNat, fieldY_imm_toNat]

theorem decode_ldStVx (x ign : Nibble) : decode (0xF#4 ++ x ++ ign ++ 0x8#4) = .op (.ldStVx x ign) := by
  simp [decode, decodeTF]

theorem exec_ldVxDt (x ign : Nibble) (s : State) : exec (.ldVxDt x ign) s = complete .normal (s.setReg x s.dt) := rfl

theorem exec_ldDtVx (x : Nibble) (s : State) :
    exec (.ldDtVx x) s = complete .normal { s with dt := s.reg x, st := s.st } := rfl

theorem exec_ldStVx (x ign : Nibble) (s : State) :
    exec (.ldStVx x ign) s = complete .normal { s with dt := s.dt, st := s.reg x } := rfl

/-- Settles O45: the read is a step that writes V[X] alone, from DT before the tick; each write is a step that writes one
timer and keeps the other, before both tick. -/
theorem timerTransfers : Obligations.TimerTransfers := by
  unfold Obligations.TimerTransfers
  refine fun x ign => ⟨decode_ldVxDt x ign, decode_ldDtVx x, decode_ldStVx x ign, fun s => ⟨?_, ?_, ?_⟩⟩
  · rw [exec_ldVxDt]; exact complete_setReg_spec s x s.dt
  · rw [exec_ldDtVx]; exact complete_setTimers_spec s (s.reg x) s.st
  · rw [exec_ldStVx]; exact complete_setTimers_spec s s.dt (s.reg x)

end Sys2Proof.Machine
end

section
/-! PROOFS. LD B, VX, LD [I], VX and LD VX, [I] (47_memory_transfer.md R191 to R193): the words that decode to them, and what
a step does that stores a block at I or loads registers from one. -/

namespace Sys2Proof.Machine

/-! ### A step that stores a block at I -/

/-- Each address of a block that fits holds its byte, I holds the word, and nothing else is written. LD B is such a step
with the I it found, LD [I], VX with I moved past the block. -/
theorem complete_storeBlock_setIndex_spec {s : State} {xs : List Byte} (w : Word) (hwf : Memory.wf s.mem)
    (hfit : s.i.toNat + xs.length ≤ 0x1000) :
    ∃ t, complete .normal ((s.storeBlock xs).setIndex w) = .next t ∧
      (∀ k (h : k < xs.length), t.readByte (s.i.toNat + k) = xs[k]) ∧ SameMemOutside s.i.toNat xs.length s t ∧
      t.i = w ∧ SameRegsBut [] s t ∧ SameStack s t ∧ SameDisplay s t ∧ SameHostSide s t ∧ EndsNormally 2 s t := by
  refine ⟨endStep .normal none ((s.storeBlock xs).setIndex w), rfl, fun k hk => ?_, fun a ha => ?_, rfl, fun _ _ => rfl,
    ⟨rfl, rfl⟩, ⟨rfl, rfl⟩, ⟨rfl, rfl, rfl, rfl, rfl⟩, endsNormally_normal rfl rfl rfl⟩
  · rw [readByte_endStep, readByte_setIndex, readByte_storeBlock hwf hfit, dif_pos (by omega)]
    simp
  · rw [readByte_endStep, readByte_setIndex, readByte_storeBlock hwf hfit, dif_neg ha]

/-! ### LD B -/

theorem decode_ldB (x ign : Nibble) : decode (0xF#4 ++ x ++ ign ++ 0x3#4) = .op (.ldB x ign) := by
  simp [decode, decodeTF]

/-- A decimal digit is below 10, so its byte does not wrap. -/
theorem toNat_getElem_bcdDigits (v : Byte) (k : Nat) (h : k < (bcdDigits v).length) :
    (bcdDigits v)[k].toNat = v.toNat / 10 ^ (2 - k) % 10 := by
  rw [getElem_bcdDigits, BitVec.toNat_ofNat]
  exact Nat.mod_eq_of_lt (by omega)

/-- Settles O46: the block of the three digits is stored with I kept, or it does not fit and LD B is the shared decode
error. -/
theorem bcdStoresThreeDigits : Obligations.BcdStoresThreeDigits := by
  unfold Obligations.BcdStoresThreeDigits
  refine fun x ign => ⟨decode_ldB x ign, fun s hwf => ⟨fun hfit => ?_, fun hpast => ?_⟩⟩
  · have hfit' : s.i.toNat + (bcdDigits (s.reg x)).length ≤ 0x1000 := Nat.succ_le_succ hfit
    obtain ⟨t, hexec, hbytes, hout, hi, hregs, hframe⟩ := complete_storeBlock_setIndex_spec s.i hwf hfit'
    have hdigit (k : Nat) (hk : k < 3) :
        (t.readByte (s.i.toNat + k)).toNat = (s.reg x).toNat / 10 ^ (2 - k) % 10 :=
      (congrArg BitVec.toNat (hbytes k hk)).trans (toNat_getElem_bcdDigits (s.reg x) k hk)
    have hhundreds : (s.reg x).toNat / 100 % 10 = (s.reg x).toNat / 100 := by have := (s.reg x).isLt; omega
    refine ⟨t, by rw [exec_ldB_of_fit x ign hfit']; exact hexec, (hdigit 0 (by decide)).trans hhundreds,
      hdigit 1 (by decide), ?_, hout, hregs, hi, hframe⟩
    simpa using hdigit 2 (by decide)
  · rw [exec_ldB_of_not_fit x ign (by omega)]
    exact decodeError_spec .memRange _ s

/-! ### LD [I], VX -/

/-- Table TF5 reads the tertiary key from the high nibble of the low byte (R79). -/
theorem decode_storeRegs (x : Nibble) : decode (0xF#4 ++ x ++ 0x55#8) = .op (.storeRegs x) := by
  simp [decode, decodeTF, decodeTF5, fieldN_imm_toNat, fieldY_imm_toNat]

/-- I advances past a block that fits without wrapping: at most to 0x1000. -/
theorem toNat_ofNat_index_add {i : Word} {n : Nat} (hfit : i.toNat + n ≤ 0x1000) :
    (BitVec.ofNat 16 (i.toNat + n)).toNat = i.toNat + n := by
  rw [BitVec.toNat_ofNat]
  exact Nat.mod_eq_of_lt (by omega)

/-- Settles O47: the block of V0..VX is stored with I moved past it, or it does not fit and the step is the shared decode
error. -/
theorem storeRegistersToMemory : Obligations.StoreRegistersToMemory := by
  unfold Obligations.StoreRegistersToMemory
  refine fun x => ⟨decode_storeRegs x, fun s hwf => ⟨fun hfit => ?_, fun hpast => ?_⟩⟩
  · have hlen : (s.firstRegs (x.toNat + 1)).length = x.toNat + 1 := length_firstRegs s _ x.isLt
    have hfit' : s.i.toNat + (x.toNat + 1) ≤ 0x1000 := Nat.succ_le_succ hfit
    obtain ⟨t, hexec, hbytes, hout, hi, hframe⟩ := complete_storeBlock_setIndex_spec
      (xs := s.firstRegs (x.toNat + 1)) (BitVec.ofNat 16 (s.i.toNat + (x.toNat + 1))) hwf (by rwa [hlen])
    refine ⟨t, by rw [exec_storeRegs_of_fit x hfit']; exact hexec, fun k hk => ?_, hlen ▸ hout, ?_, hframe⟩
    · rw [hbytes k.toNat (by omega), getElem_firstRegs, BitVec.ofNat_toNat, BitVec.setWidth_eq]
    · rw [hi, toNat_ofNat_index_add hfit', Nat.add_assoc]
  · rw [exec_storeRegs_of_not_fit x (by omega)]
    exact decodeError_spec .memRange _ s

/-! ### A step that loads registers from V0 up -/

/-- Each register from V0 up holds its byte, those past the bytes keep theirs, I moves on, and nothing else is written. -/
theorem complete_setRegs_advanceIndex_spec (s : State) {bs : List Byte} (n : Nat) (hlen : bs.length ≤ 16) :
    ∃ t, complete .normal ((s.setRegs 0 bs).advanceIndex n) = .next t ∧
      (∀ (k : Nibble) (h : k.toNat < bs.length), t.reg k = bs[k.toNat]) ∧
      (∀ k : Nibble, bs.length ≤ k.toNat → t.reg k = s.reg k) ∧ t.i = BitVec.ofNat 16 (s.i.toNat + n) ∧
      SameMem s t ∧ SameStack s t ∧ SameDisplay s t ∧ SameHostSide s t ∧ EndsNormally 2 s t := by
  have hregs (k : Nibble) : (endStep .normal none ((s.setRegs 0 bs).advanceIndex n)).reg k =
      if h : 0 ≤ k.toNat ∧ k.toNat < 0 + bs.length then bs[k.toNat - 0]'(by omega) else s.reg k :=
    reg_setRegs bs s 0 k (by omega)
  refine ⟨_, rfl, fun k hk => ?_, fun k hk => ?_, by simp, fun a => by simp, by simp [SameStack], by simp [SameDisplay],
    by simp [SameHostSide], endsNormally_normal (by simp) (by simp) (by simp)⟩
  · rw [hregs, dif_pos (by omega)]; rfl
  · rw [hregs, dif_neg (by omega)]

/-! ### LD VX, [I] -/

/-- As for the store, but for the tertiary key (R79). -/
theorem decode_loadRegs (x : Nibble) : decode (0xF#4 ++ x ++ 0x65#8) = .op (.loadRegs x) := by
  simp [decode, decodeTF, decodeTF5, fieldN_imm_toNat, fieldY_imm_toNat]

theorem exec_loadRegs_of_fit {s : State} (x : Nibble) (hfit : s.i.toNat + (x.toNat + 1) ≤ 0x1000) :
    exec (.loadRegs x) s =
      complete .normal ((s.setRegs 0 (s.readBlock (x.toNat + 1))).advanceIndex (x.toNat + 1)) :=
  if_pos ((blockOk_iff s _).2 (.inr hfit))

theorem exec_loadRegs_of_not_fit {s : State} (x : Nibble) (hfit : ¬ s.i.toNat + (x.toNat + 1) ≤ 0x1000) :
    exec (.loadRegs x) s = decodeError .memRange (encode (.loadRegs x)) s :=
  if_neg (by rw [blockOk_iff]; omega)

@[simp] theorem length_readBlock (s : State) (n : Nat) : (s.readBlock n).length = n :=
  length_readBytes s.mem s.i.toNat n

/-- The k-th byte loaded is the one at I + k before the step (R193). -/
theorem getElem_readBlock (s : State) (n k : Nat) (h : k < (s.readBlock n).length) :
    (s.readBlock n)[k] = s.readByte (s.i.toNat + k) :=
  getElem_readBytes s.mem s.i.toNat n k h

/-- Settles O48: V0..VX are loaded from the block read at I and I moves past it, or it does not fit and the step is the
shared decode error. -/
theorem loadRegistersFromMemory : Obligations.LoadRegistersFromMemory := by
  unfold Obligations.LoadRegistersFromMemory
  refine fun x => ⟨decode_loadRegs x, fun s => ⟨fun hfit => ?_, fun hpast => ?_⟩⟩
  · have hlen : (s.readBlock (x.toNat + 1)).length = x.toNat + 1 := length_readBlock s _
    have hfit' : s.i.toNat + (x.toNat + 1) ≤ 0x1000 := Nat.succ_le_succ hfit
    obtain ⟨t, hexec, hloaded, hkept, hi, hframe⟩ :=
      complete_setRegs_advanceIndex_spec s (x.toNat + 1) (hlen.trans_le x.isLt)
    refine ⟨t, by rw [exec_loadRegs_of_fit x hfit', hexec], fun k hk => ?_, fun k hk => ?_, ?_, hframe⟩
    · rw [hloaded k (by omega), getElem_readBlock]
    · exact hkept k (by omega)
    · rw [hi, toNat_ofNat_index_add hfit', Nat.add_assoc]
  · rw [exec_loadRegs_of_not_fit x (by omega)]
    exact decodeError_spec .memRange _ s

end Sys2Proof.Machine
end

section
/-! PROOFS. The encoder writes every decoded term back as the word it was read from, ignored bits included (30_encoding.md
R73, R85), so that an instruction that reports its own term reports the raw word (60_exceptions.md R202). -/

namespace Sys2Proof

/-! ### A word is made of its fields -/

section
variable {w : Word} {a k : Nibble} {nn : Byte} (ha : (fieldN3 w).toNat = a.toNat)
include ha

theorem word_of_addr_fields : (a ++ fieldNNN w : Word) = w := by
  have hword := toNat_word_addr a (fieldNNN w)
  have hlt := w.isLt
  rw [fieldN3_toNat] at ha
  rw [fieldNNN_toNat] at hword
  apply BitVec.eq_of_toNat_eq
  omega

theorem word_of_imm_fields (hnn : (fieldNN w).toNat = nn.toNat) : (a ++ fieldX w ++ nn : Word) = w := by
  have hword := toNat_word_imm a (fieldX w) nn
  have hlt := w.isLt
  rw [fieldN3_toNat] at ha
  rw [fieldNN_toNat] at hnn
  rw [fieldX_toNat] at hword
  apply BitVec.eq_of_toNat_eq
  omega

theorem word_of_t0_fields (hk : (fieldN w).toNat = k.toNat) : (a ++ fieldT0Ign w ++ k : Word) = w := by
  have hword := toNat_word_t0 a (fieldT0Ign w) k
  have hlt := w.isLt
  rw [fieldN3_toNat] at ha
  rw [fieldN_toNat] at hk
  rw [fieldT0Ign_toNat] at hword
  apply BitVec.eq_of_toNat_eq
  omega

theorem word_of_regs_fields (hk : (fieldN w).toNat = k.toNat) : (a ++ fieldX w ++ fieldY w ++ k : Word) = w := by
  have hword := toNat_word_regs a (fieldX w) (fieldY w) k
  have hlt := w.isLt
  rw [fieldN3_toNat] at ha
  rw [fieldN_toNat] at hk
  rw [fieldX_toNat, fieldY_toNat] at hword
  apply BitVec.eq_of_toNat_eq
  omega

end

/-- The last byte of a word is its two low nibbles. -/
theorem fieldNN_toNat_eq_fieldY_fieldN (w : Word) : (fieldNN w).toNat = (fieldY w).toNat * 16 + (fieldN w).toNat := by
  rw [fieldNN_toNat, fieldY_toNat, fieldN_toNat]; omega

/-! ### One lemma per table -/

section
variable {w : Word} {i : Instr}

theorem encode_of_decodeT0 (htop : (fieldN3 w).toNat = 0x0) (h : decodeT0 w = .op i) : encode i = w := by
  unfold decodeT0 at h
  split at h <;> cases h
  case h_1 hk | h_2 hk => exact word_of_t0_fields htop hk
  case h_3 => exact word_of_addr_fields htop

theorem encode_of_decodeT8 (htop : (fieldN3 w).toNat = 0x8) (h : decodeT8 w = .op i) : encode i = w := by
  unfold decodeT8 at h
  split at h <;> cases h
  all_goals next hk => exact word_of_regs_fields htop hk

theorem encode_of_decodeTE (htop : (fieldN3 w).toNat = 0xE) (h : decodeTE w = .op i) : encode i = w := by
  unfold decodeTE at h
  split at h <;> cases h
  all_goals next hk => exact word_of_regs_fields htop hk

/-- The rows of TF5 fix the whole last byte (R79). -/
theorem encode_of_decodeTF5 (htop : (fieldN3 w).toNat = 0xF) (hlow : (fieldN w).toNat = 0x5) (h : decodeTF5 w = .op i) :
    encode i = w := by
  have hbyte := fieldNN_toNat_eq_fieldY_fieldN w
  unfold decodeTF5 at h
  split at h <;> cases h
  all_goals next hy =>
    rw [hy, hlow] at hbyte
    exact word_of_imm_fields htop hbyte

theorem encode_of_decodeTF (htop : (fieldN3 w).toNat = 0xF) (h : decodeTF w = .op i) : encode i = w := by
  unfold decodeTF at h
  split at h
  case h_2 hlow => exact encode_of_decodeTF5 htop hlow h
  all_goals next hk => cases h <;> exact word_of_regs_fields htop hk

/-- Decoding loses no bit of a word (R85). -/
theorem encode_of_decode (h : decode w = .op i) : encode i = w := by
  have hlt := (fieldN3 w).isLt
  unfold decode at h
  split at h
  case h_1 htop => exact encode_of_decodeT0 htop h
  case h_9 htop => exact encode_of_decodeT8 htop h
  case h_15 htop => exact encode_of_decodeTE htop h
  case h_16 =>
    have htop : (fieldN3 w).toNat = 0xF := by simp only [imp_false] at *; omega
    exact encode_of_decodeTF htop h
  case h_2 htop | h_3 htop | h_11 htop | h_12 htop => cases h; exact word_of_addr_fields htop
  case h_6 htop | h_10 htop | h_14 htop => cases h; exact word_of_regs_fields htop rfl
  all_goals next htop => cases h; exact word_of_imm_fields htop rfl

end

end Sys2Proof
end

section
/-! PROOFS. What every step reports and how it ticks: the causes of a decode error (60_exceptions.md R203) and the timers and
the beep (R211) of a performed step, of a halted machine's step (40_execution_cycle.md R101) and of a fetch fault (R206). -/

namespace Sys2Proof.Machine

/-! ### What an instruction does, by its cause -/

/-- `exec` leaves what the tick is to find in the timers and completes. -/
def CompletesTicking (i : Instr) (s : State) : Prop :=
  ∃ adv u, exec i s = complete adv u ∧ u.dt = dtBeforeTick (.op i) s ∧ u.st = stBeforeTick (.op i) s

theorem exec_call_cases (nnn : Addr) (s : State) :
    (s.sp.val = 16 ∧ exec (.call nnn) s = decodeError .stackOverflow (encode (.call nnn)) s) ∨
    (s.sp.val ≠ 16 ∧ CompletesTicking (.call nnn) s) := by
  obtain ⟨hpush, hfull⟩ | ⟨u, hpush, hroom, -, -, -, hu⟩ := push_cases s s.pc
  · exact .inl ⟨hfull, by simp only [exec, execCall, hpush]⟩
  · exact .inr ⟨by omega, .jump nnn.toNat, u, by simp only [exec, execCall, hpush], by rw [hu]; rfl, by rw [hu]; rfl⟩

theorem keyOperand_of_le {s : State} {x : Nibble} (h : ¬ (s.reg x).toNat > 15) :
    s.keyOperand x = some (s.reg x).toNat := if_pos (by omega)

theorem keyOperand_of_gt {s : State} {x : Nibble} (h : (s.reg x).toNat > 15) : s.keyOperand x = none :=
  if_neg (by omega)

/-- The table of causes decides between the two ways an instruction ends (R203). -/
theorem exec_by_errorCause (i : Instr) (s : State) :
    (∃ c, errorCause i s = some c ∧ exec i s = decodeError c (encode i) s) ∨
    (errorCause i s = none ∧ CompletesTicking i s) := by
  cases i with
  | sys nnn => exact .inl ⟨_, rfl, rfl⟩
  | call nnn =>
    obtain ⟨hfull, hexec⟩ | ⟨hroom, hdone⟩ := exec_call_cases nnn s
    · exact .inl ⟨_, if_pos hfull, hexec⟩
    · exact .inr ⟨if_neg hroom, hdone⟩
  | ret ign =>
    by_cases hempty : s.sp.val = 0
    · exact .inl ⟨_, if_pos hempty, exec_ret_of_empty ign hempty⟩
    · obtain ⟨p, -, hexec⟩ := exec_ret_of_occupied ign (Nat.pos_of_ne_zero hempty)
      exact .inr ⟨if_neg hempty, _, _, hexec, rfl, rfl⟩
  | drw x y n =>
    by_cases hpast : 0 < n.toNat ∧ s.i.toNat + n.toNat - 1 > 0xFFF
    · exact .inl ⟨_, if_pos hpast, if_neg (by rw [blockOk_iff]; omega)⟩
    · exact .inr ⟨if_neg hpast, _, _, if_pos ((blockOk_iff s _).2 (by omega)), rfl, rfl⟩
  | ldB x ign =>
    by_cases hpast : s.i.toNat + 2 > 0xFFF
    · exact .inl ⟨_, if_pos hpast, exec_ldB_of_not_fit x ign (by omega)⟩
    · exact .inr ⟨if_neg hpast, _, _, exec_ldB_of_fit x ign (by omega), rfl, rfl⟩
  | storeRegs x =>
    by_cases hpast : s.i.toNat + x.toNat > 0xFFF
    · exact .inl ⟨_, if_pos hpast, exec_storeRegs_of_not_fit x (by omega)⟩
    · exact .inr ⟨if_neg hpast, _, _, exec_storeRegs_of_fit x (by omega), rfl, rfl⟩
  | loadRegs x =>
    by_cases hpast : s.i.toNat + x.toNat > 0xFFF
    · exact .inl ⟨_, if_pos hpast, exec_loadRegs_of_not_fit x (by omega)⟩
    · exact .inr ⟨if_neg hpast, _, _, exec_loadRegs_of_fit x (by omega), setRegs_dt s 0 _, setRegs_st s 0 _⟩
  | skp x ign =>
    by_cases hkey : (s.reg x).toNat > 15
    · exact .inl ⟨_, if_pos hkey, by simp only [exec, execSkp, keyOperand_of_gt hkey]⟩
    · exact .inr ⟨if_neg hkey, _, s, by simp only [exec, execSkp, keyOperand_of_le hkey]; rfl, rfl, rfl⟩
  | sknp x ign =>
    by_cases hkey : (s.reg x).toNat > 15
    · exact .inl ⟨_, if_pos hkey, by simp only [exec, execSknp, keyOperand_of_gt hkey]⟩
    · exact .inr ⟨if_neg hkey, _, s, by simp only [exec, execSknp, keyOperand_of_le hkey]; rfl, rfl, rfl⟩
  | ldVxK x ign =>
    refine .inr ⟨rfl, ?_⟩
    cases hscan : s.scanKeys with
    | some k => exact ⟨.normal, s.setReg x (BitVec.ofNat 8 k), by simp only [exec, execLdVxK, hscan], rfl, rfl⟩
    | none =>
      cases hmode : s.params.keyWait with
      | scan => exact ⟨.normal, s, by simp only [exec, execLdVxK, hscan, hmode], rfl, rfl⟩
      | block => exact ⟨.hold, s, by simp only [exec, execLdVxK, hscan, hmode], rfl, rfl⟩
  | _ => exact .inr ⟨rfl, _, _, rfl, rfl, rfl⟩

/-- No instruction that raises a decode error writes a timer. -/
theorem timersBeforeTick_of_errorCause {i : Instr} {s : State} {c : DiagCode} (h : errorCause i s = some c) :
    dtBeforeTick (.op i) s = s.dt ∧ stBeforeTick (.op i) s = s.st := by
  cases i with
  | ldDtVx x => cases h
  | ldStVx x ign => cases h
  | _ => exact ⟨rfl, rfl⟩

/-! ### A performed step -/

/-- The diagnostic of a performed step on the word `w` (R202, R203). -/
def wordDiag (w : Word) (s : State) : Option Diag := (wordCause w s).map fun c => ⟨c, some w, s.pc⟩

/-- Every performed step ends in phases (4) and (5), with the diagnostic of its word and on timers that hold what the
instruction left there. -/
theorem step_eq_endStep {s : State} (hl : s.loaded = true) (hh : s.halted = false) (hp : s.pc.toNat ≤ 0xFFE) :
    ∃ adv u, step s = .next (endStep adv (wordDiag s.fetchWord s) u) ∧ u.dt = dtBeforeTick (decode s.fetchWord) s ∧
      u.st = stBeforeTick (decode s.fetchWord) s := by
  rw [step_eq_decoded hl hh hp]
  cases hdec : decode s.fetchWord with
  | unrecognized t =>
    have hdiag : wordDiag s.fetchWord s = some ⟨.unrecognized, some s.fetchWord, s.pc⟩ := by
      simp only [wordDiag, wordCause, hdec, Option.map_some]
    exact ⟨.normal, s, by rw [hdiag]; rfl, rfl, rfl⟩
  | op i =>
    have hdiag : wordDiag s.fetchWord s = (errorCause i s).map fun c => ⟨c, some (encode i), s.pc⟩ := by
      simp only [wordDiag, wordCause, hdec, encode_of_decode hdec]
    obtain ⟨c, hc, hexec⟩ | ⟨hnone, adv, u, hexec, hdt, hst⟩ := exec_by_errorCause i s
    · obtain ⟨hdt, hst⟩ := timersBeforeTick_of_errorCause hc
      exact ⟨.normal, s, by rw [hdiag, hc]; exact hexec, hdt.symm, hst.symm⟩
    · exact ⟨adv, u, by rw [hdiag, hnone]; exact hexec, hdt, hst⟩

/-- Settles O9: the step ends with the diagnostic of its word, whichever way its instruction ends. -/
theorem decodeErrorCauses : Obligations.DecodeErrorCauses := by
  unfold Obligations.DecodeErrorCauses
  intro s hl hh hp
  obtain ⟨adv, u, hstep, -, -⟩ := step_eq_endStep hl hh hp
  exact ⟨_, hstep, rfl⟩

/-! ### Steps that are not performed -/

theorem loaded_of_step {s t : State} (h : step s = .next t) : s.loaded = true := by
  cases hl : s.loaded with
  | true => rfl
  | false =>
    have hrefused : step s = .refused .notLoaded := if_neg (by simp [hl])
    rw [hrefused] at h; cases h

theorem step_of_halted {s : State} (hl : s.loaded = true) (hh : s.halted = true) : step s = stuck s := by
  have h : step s = _ := if_pos hl
  exact h.trans (if_pos hh)

theorem step_of_fetchFault {s : State} (hl : s.loaded = true) (hh : s.halted = false) (hp : 0xFFE < s.pc.toNat) :
    step s = fetchFault s := by
  have hfetch : ¬ s.fetchOk = true := by simpa [State.fetchOk] using hp
  have h : step s = _ := if_pos hl
  exact h.trans ((if_neg (by simp [hh])).trans (if_neg hfetch))

theorem step_not_performed {s t : State} (h : step s = .next t) (hno : s.halted = true ∨ 0xFFE < s.pc.toNat) :
    t.dt = s.dt ∧ t.st = s.st ∧ t.beep = false := by
  have hl := loaded_of_step h
  cases hh : s.halted with
  | true => rw [step_of_halted hl hh] at h; cases h; exact ⟨rfl, rfl, rfl⟩
  | false =>
    have hp : 0xFFE < s.pc.toNat := hno.resolve_left (by simp [hh])
    rw [step_of_fetchFault hl hh hp] at h; cases h; exact ⟨rfl, rfl, rfl⟩

/-- Settles O11: a performed step ends in phase (4) on the timers its instruction left; the other two kinds skip it. -/
theorem everyPerformedStepTicks : Obligations.EveryPerformedStepTicks := by
  unfold Obligations.EveryPerformedStepTicks
  refine fun s t h => ⟨fun hh hp => ?_, step_not_performed h⟩
  obtain ⟨adv, u, hstep, hdt, hst⟩ := step_eq_endStep (loaded_of_step h) hh hp
  rw [hstep] at h
  cases h
  rw [← hdt, ← hst]
  exact ticked_endStep (s := u) adv _ rfl rfl

end Sys2Proof.Machine
end

section
/-! PROOFS. The host's operations other than LoadROM (60_exceptions.md R213), and a sequence past an error or a refusal. -/

namespace Sys2Proof.Machine

/-- An operation that answers no next state leaves the host with the state it had (40_execution_cycle.md R101,
70_reset_and_hazards.md R232). -/
theorem hostRun_cons_of_not_next {o : HostOp} {s : State} (os : List HostOp) (h : ∀ t, hostStep o s ≠ .next t) :
    hostRun (o :: os) s = hostRun os s := by
  cases hstep : hostStep o s with
  | next t => exact absurd hstep (h t)
  | fault r => simp only [hostRun, hstep]
  | refused r => simp only [hostRun, hstep]

/-- Settles O53: SetKeys and ConsumeDisplay update one field each, the reads none, and a sequence goes on past an error or
a refusal with the old state. -/
theorem hostTouchesOnlyItsState : Obligations.HostTouchesOnlyItsState := by
  unfold Obligations.HostTouchesOnlyItsState
  exact fun s => ⟨fun _ => rfl, rfl, rfl, rfl, rfl, rfl, fun _ => rfl, fun _ os h => hostRun_cons_of_not_next os h⟩

end Sys2Proof.Machine
end

section
/-! PROOFS. Decoder and encoder (30_encoding.md sections 1 to 5): the words of the remaining rows, the round trip in both
directions, and that the ignored bits of a term change nothing but the word a diagnostic shows (R85). -/

namespace Sys2Proof.Machine

/-! ### The rows with no decode lemma yet -/

theorem decode_call (nnn : Addr) : decode (0x2#4 ++ nnn) = .op (.call nnn) := by
  simp [decode]

theorem decode_jpV0 (nnn : Addr) : decode (0xB#4 ++ nnn) = .op (.jpV0 nnn) := by
  simp [decode]

theorem decode_rnd (x : Nibble) (nn : Byte) : decode (0xC#4 ++ x ++ nn) = .op (.rnd x nn) := by
  simp [decode]

theorem decode_drw (x y n : Nibble) : decode (0xD#4 ++ x ++ y ++ n) = .op (.drw x y n) := by
  simp [decode]

theorem decode_ldReg (x y : Nibble) : decode (0x8#4 ++ x ++ y ++ 0x0#4) = .op (.ldReg x y) := by
  simp [decode, decodeT8]

theorem decode_orReg (x y : Nibble) : decode (0x8#4 ++ x ++ y ++ 0x1#4) = .op (.orReg x y) := by
  simp [decode, decodeT8]

theorem decode_andReg (x y : Nibble) : decode (0x8#4 ++ x ++ y ++ 0x2#4) = .op (.andReg x y) := by
  simp [decode, decodeT8]

theorem decode_xorReg (x y : Nibble) : decode (0x8#4 ++ x ++ y ++ 0x3#4) = .op (.xorReg x y) := by
  simp [decode, decodeT8]

theorem decode_shr (x ign : Nibble) : decode (0x8#4 ++ x ++ ign ++ 0x6#4) = .op (.shr x ign) := by
  simp [decode, decodeT8]

theorem decode_shl (x ign : Nibble) : decode (0x8#4 ++ x ++ ign ++ 0xE#4) = .op (.shl x ign) := by
  simp [decode, decodeT8]

theorem decode_skp (x ign : Nibble) : decode (0xE#4 ++ x ++ ign ++ 0xE#4) = .op (.skp x ign) := by
  simp [decode, decodeTE]

theorem decode_sknp (x ign : Nibble) : decode (0xE#4 ++ x ++ ign ++ 0x1#4) = .op (.sknp x ign) := by
  simp [decode, decodeTE]

theorem decode_ldVxK (x ign : Nibble) : decode (0xF#4 ++ x ++ ign ++ 0xA#4) = .op (.ldVxK x ign) := by
  simp [decode, decodeTF]

theorem decode_addI (x ign : Nibble) : decode (0xF#4 ++ x ++ ign ++ 0xE#4) = .op (.addI x ign) := by
  simp [decode, decodeTF]

theorem decode_ldF (x ign : Nibble) : decode (0xF#4 ++ x ++ ign ++ 0x9#4) = .op (.ldF x ign) := by
  simp [decode, decodeTF]

/-! ### SYS, the row of lowest priority -/

theorem decode_top_zero (nnn : Addr) : decode (0x0#4 ++ nnn) = decodeT0 (0x0#4 ++ nnn) := by
  simp [decode]

/-- Table T0 on a 0NNN word goes by the low nibble of NNN (R75). -/
theorem decode_sys {nnn : Addr} (h0 : nnn.toNat % 16 ≠ 0x0) (hE : nnn.toNat % 16 ≠ 0xE) :
    decode (0x0#4 ++ nnn) = .op (.sys nnn) := by
  rw [← fieldN_addr_toNat 0x0#4 nnn] at h0 hE
  rw [decode_top_zero, decodeT0]
  split
  case h_1 hk => exact absurd hk h0
  case h_2 hk => exact absurd hk hE
  case h_3 => rw [fieldNNN_addr]

theorem wellFormed_sys_iff (nnn : Addr) : WellFormed (.sys nnn) ↔ nnn.toNat % 16 ≠ 0x0 ∧ nnn.toNat % 16 ≠ 0xE := by
  simp [WellFormed, Instr.wf, sysOperandOk]

/-- Table T0 answers SYS only for the keys that are neither CLS nor RET. -/
theorem wellFormed_of_decodeT0 {w : Word} {i : Instr} (h : decodeT0 w = .op i) : WellFormed i := by
  unfold decodeT0 at h
  split at h <;> cases h
  case h_3 h0 hE =>
    have hlow : (fieldNNN w).toNat % 16 = (fieldN w).toNat := by rw [fieldNNN_toNat, fieldN_toNat]; omega
    rw [wellFormed_sys_iff, hlow]
    exact ⟨h0, hE⟩
  all_goals rfl

/-- SYS is the one row with a condition, and only a word with primary key 0 decodes to it. -/
theorem wellFormed_of_decode {w : Word} {i : Instr} (h : decode w = .op i) : WellFormed i := by
  cases i with
  | sys nnn =>
    obtain ⟨htop, -⟩ := decode_eq_sys h
    have hT0 : decode w = decodeT0 w := by simp only [decode, htop]
    exact wellFormed_of_decodeT0 (hT0 ▸ h)
  | _ => rfl

/-! ### The round trip -/

/-- The decoder reads back every term that stands for a word: each row's decode lemma is about the word the encoder
writes. -/
theorem decode_encode {i : Instr} (h : WellFormed i) : decode (encode i) = .op i := by
  cases i with
  | sys nnn => obtain ⟨h0, hE⟩ := (wellFormed_sys_iff nnn).1 h; exact decode_sys h0 hE
  | cls ign => exact decode_cls ign
  | ret ign => exact decode_ret ign
  | jp nnn => exact decode_jp nnn
  | call nnn => exact decode_call nnn
  | seImm x nn => exact decode_seImm x nn
  | sneImm x nn => exact decode_sneImm x nn
  | seReg x y ign => exact decode_seReg x y ign
  | ldImm x nn => exact decode_ldImm x nn
  | addImm x nn => exact decode_addImm x nn
  | ldReg x y => exact decode_ldReg x y
  | orReg x y => exact decode_orReg x y
  | andReg x y => exact decode_andReg x y
  | xorReg x y => exact decode_xorReg x y
  | addReg x y => exact decode_addReg x y
  | subReg x y => exact decode_subReg x y
  | shr x ign => exact decode_shr x ign
  | subnReg x y => exact decode_subnReg x y
  | shl x ign => exact decode_shl x ign
  | sneReg x y ign => exact decode_sneReg x y ign
  | ldI nnn => exact decode_ldI nnn
  | jpV0 nnn => exact decode_jpV0 nnn
  | rnd x nn => exact decode_rnd x nn
  | drw x y n => exact decode_drw x y n
  | skp x ign => exact decode_skp x ign
  | sknp x ign => exact decode_sknp x ign
  | ldVxDt x ign => exact decode_ldVxDt x ign
  | ldVxK x ign => exact decode_ldVxK x ign
  | ldDtVx x => exact decode_ldDtVx x
  | ldStVx x ign => exact decode_ldStVx x ign
  | addI x ign => exact decode_addI x ign
  | ldF x ign => exact decode_ldF x ign
  | ldB x ign => exact decode_ldB x ign
  | storeRegs x => exact decode_storeRegs x
  | loadRegs x => exact decode_loadRegs x

/-- Settles O1: row by row from a term to its word and back, and from a word to its term and back. -/
theorem decodeAndEncodeAgree : Obligations.DecodeAndEncodeAgree := by
  unfold Obligations.DecodeAndEncodeAgree
  exact ⟨fun _ => decode_encode, fun _ _ h => ⟨wellFormed_of_decode h, encode_of_decode h⟩⟩

/-- Settles O2: each sample is a word the encoder writes, or, for 0xF125, one that table TF5 lacks. -/
theorem sampleWordsDecode : Obligations.SampleWordsDecode := by
  unfold Obligations.SampleWordsDecode
  exact ⟨decode_jp 0x3AB, decode_ret 0x0E, decode_seImm 3 0x42, decode_sneImm 3 0x00, decode_seReg 1 2 0,
    decode_sneReg 1 2 0, decode_addReg 0 1, decode_ldImm 0xA 0x2F, decode_addImm 3 3, decode_ldI 0x300,
    decode_rnd 3 0x0F, decode_addI 1 1, decode_drw 0 1 5, decode_sknp 5 0xA, decode_ldDtVx 1, decode_storeRegs 3,
    rfl, decode_sys (nnn := 0x123) (by decide) (by decide)⟩

/-! ### Ignored bits -/

/-- Both runs answer a next state, and the two states differ at most in the word that their diagnostics show. -/
def SameButWord (a b : Host.Outcome State Fault Refusal) : Prop :=
  ∃ t u, a = .next t ∧ b = .next u ∧ t = { u with diag := t.diag } ∧
    t.diag.map (fun d => (d.code, d.pc)) = u.diag.map (fun d => (d.code, d.pc))

theorem sameButWord_complete (adv : Advance) (s : State) : SameButWord (complete adv s) (complete adv s) :=
  ⟨_, _, rfl, rfl, rfl, rfl⟩

theorem sameButWord_decodeError (c : DiagCode) (w w' : Word) (s : State) :
    SameButWord (decodeError c w s) (decodeError c w' s) :=
  ⟨_, _, rfl, rfl, rfl, rfl⟩

theorem sameButWord_exec_self (i : Instr) (s : State) : SameButWord (exec i s) (exec i s) := by
  obtain ⟨adv, u, hexec, -⟩ | ⟨c, hexec⟩ := exec_cases i s <;> rw [hexec]
  · exact sameButWord_complete adv u
  · exact sameButWord_decodeError c _ _ s

/-- Of the rows with ignored bits, four can report a decode error and so show the word; the meaning of the others does not
mention those bits at all. -/
theorem sameButWord_exec_canonical (i : Instr) (s : State) : SameButWord (exec i s) (exec (canonical i) s) := by
  cases i with
  | ret ign =>
    show SameButWord (execRet ign s) (execRet 0x0E s)
    simp only [execRet]
    cases s.pop with
    | none => exact sameButWord_decodeError _ _ _ s
    | some p => exact sameButWord_complete _ p.2
  | skp x ign =>
    show SameButWord (execSkp x ign s) (execSkp x 0x9 s)
    simp only [execSkp]
    cases s.keyOperand x with
    | none => exact sameButWord_decodeError _ _ _ s
    | some k => exact sameButWord_complete _ s
  | sknp x ign =>
    show SameButWord (execSknp x ign s) (execSknp x 0xA s)
    simp only [execSknp]
    cases s.keyOperand x with
    | none => exact sameButWord_decodeError _ _ _ s
    | some k => exact sameButWord_complete _ s
  | ldB x ign =>
    show SameButWord (execLdB x ign s) (execLdB x 3 s)
    simp only [execLdB]
    split
    · exact sameButWord_complete _ _
    · exact sameButWord_decodeError _ _ _ s
  | _ => exact sameButWord_exec_self _ s

/-- Settles O4: the words of the table by their rows' decode lemmas, and each term against its canonical term. -/
theorem ignoredBitsAreIgnored : Obligations.IgnoredBitsAreIgnored := by
  unfold Obligations.IgnoredBitsAreIgnored
  exact ⟨fun x y n z => ⟨decode_cls z, decode_ret z, decode_seReg x y n, decode_sneReg x y n, decode_skp x y,
    decode_sknp x y, decode_ldVxDt x y, decode_ldVxK x y, decode_ldStVx x y, decode_addI x y, decode_ldF x y,
    decode_ldB x y, decode_shr x y, decode_shl x y⟩, sameButWord_exec_canonical⟩

end Sys2Proof.Machine
end

section
/-! PROOFS. What phase (3) of each instruction may write and how its pc may move (10_state.md section 9,
40_execution_cycle.md R104), said once for every instruction, and the whole-machine frames that follow. -/

namespace Sys2Proof.Machine

/-! ### The writes and the PC outcome of a handler -/

/-- `u` differs from `s` only where the tables of 10_state.md let instruction `i` write; memory is stated apart, in
`exec_mem_of_no_store` and `memoryWriters`. -/
structure Writes (i : Instr) (s u : State) : Prop extends Handled s u where
  regs : ∀ k, mayWriteReg i k = false → u.reg k = s.reg k
  index : mayWriteIndex i = false → u.i = s.i
  stack : mayReachStack i = false → SameStack s u
  display : mayWriteDisplay i = false → SameDisplay s u

/-- The PC outcomes that R104 allows an instruction. -/
def MayAdvance (i : Instr) : Advance → Prop
  | .normal => True
  | .skip => maySkip i = true
  | .jump _ => mayJump i = true
  | .hold => mayHold i = true

theorem Writes.refl (i : Instr) (s : State) : Writes i s s where
  toHandled := Handled.refl s
  regs _ _ := rfl
  index _ := rfl
  stack _ := ⟨rfl, rfl⟩
  display _ := ⟨rfl, rfl⟩

/-- A register that the instruction may write takes any byte. -/
theorem Writes.setReg {i : Instr} {s u : State} {x : Nibble} (h : Writes i s u) (b : Byte)
    (hx : mayWriteReg i x = true) : Writes i s (u.setReg x b) where
  toHandled := { h.toHandled with }
  regs k hk := by
    have hne : k ≠ x := by rintro rfl; simp [hx] at hk
    rw [reg_setReg_of_ne u b hne, h.regs k hk]
  index := h.index
  stack := h.stack
  display := h.display

/-- A flag and a result: two registers that the instruction may write. -/
theorem Writes.setFlagReg {i : Instr} {s u : State} {x : Nibble} (h : Writes i s u) (f b : Byte)
    (hf : mayWriteReg i VF = true) (hx : mayWriteReg i x = true) : Writes i s (u.setFlagReg x f b) :=
  (h.setReg f hf).setReg b hx

theorem Writes.setIndex {i : Instr} {s u : State} (h : Writes i s u) (w : Word) (hi : mayWriteIndex i = true) :
    Writes i s (u.setIndex w) where
  toHandled := { h.toHandled with }
  regs := h.regs
  index hno := by simp [hi] at hno
  stack := h.stack
  display := h.display

/-- Memory is none of the parts that `Writes` speaks of. -/
theorem Writes.storeBlock {i : Instr} {s u : State} (h : Writes i s u) (xs : List Byte) :
    Writes i s (u.storeBlock xs) where
  toHandled := { h.toHandled with }
  regs := h.regs
  index := h.index
  stack := h.stack
  display := h.display

theorem Writes.setDisplay {i : Instr} {s u : State} (h : Writes i s u) (d : Display) (b : Bool)
    (hd : mayWriteDisplay i = true) : Writes i s { u with disp := d, dirty := b } where
  toHandled := { h.toHandled with }
  regs := h.regs
  index := h.index
  stack := h.stack
  display hno := by simp [hd] at hno

theorem Writes.setStack {i : Instr} {s u : State} (h : Writes i s u) (st : Vector Word 16) (p : Fin 17)
    (hs : mayReachStack i = true) : Writes i s { u with stack := st, sp := p } where
  toHandled := { h.toHandled with }
  regs := h.regs
  index := h.index
  stack hno := by simp [hs] at hno
  display := h.display

theorem Writes.setTimers {i : Instr} {s u : State} (h : Writes i s u) (d e : Byte) :
    Writes i s { u with dt := d, st := e } where
  toHandled := { h.toHandled with }
  regs := h.regs
  index := h.index
  stack := h.stack
  display := h.display

/-- A run of registers, each of which the instruction may write. -/
theorem Writes.setRegs {i : Instr} {s : State} (bs : List Byte) :
    ∀ {u : State} {k : Nat}, Writes i s u → (∀ j, j < bs.length → mayWriteReg i (BitVec.ofNat 4 (k + j)) = true) →
      Writes i s (u.setRegs k bs) := by
  induction bs with
  | nil => intro u k h _; exact h
  | cons b bs ih =>
    intro u k h hmay
    refine ih (h.setReg b (hmay 0 (by simp))) fun j hj => ?_
    rw [Nat.add_assoc, Nat.add_comm 1 j]
    exact hmay (j + 1) (by simpa using hj)

/-- LD VX, [I] may write each register it has a byte for. -/
theorem mayWriteReg_loadRegs {x : Nibble} {j : Nat} (h : j < x.toNat + 1) :
    mayWriteReg (.loadRegs x) (BitVec.ofNat 4 (0 + j)) = true := by
  have hx := x.isLt
  have hj : (BitVec.ofNat 4 (0 + j)).toNat = j := by rw [BitVec.toNat_ofNat]; omega
  simp only [mayWriteReg, hj, decide_eq_true_eq]
  omega

theorem mayAdvance_skipIf {i : Instr} (h : maySkip i = true) (c : Bool) : MayAdvance i (skipIf c) := by
  cases c with
  | false => trivial
  | true => exact h

/-- Every instruction reports a decode error of its own word, or completes with the writes and the PC outcome that the
tables allow it. -/
theorem exec_writes (i : Instr) (s : State) :
    (∃ c, exec i s = decodeError c (encode i) s) ∨
    (∃ adv u, exec i s = complete adv u ∧ Writes i s u ∧ MayAdvance i adv) := by
  have hrefl := Writes.refl i s
  cases i with
  | sys nnn => exact .inl ⟨_, rfl⟩
  | cls ign => exact .inr ⟨.normal, _, rfl, hrefl.setDisplay _ _ rfl, trivial⟩
  | ret ign =>
    obtain ⟨hpop, -⟩ | ⟨u, hpop, -, -, hu⟩ := pop_cases s
    · exact .inl ⟨_, by simp only [exec, execRet, hpop]; rfl⟩
    · exact .inr ⟨.jump _, u, by simp only [exec, execRet, hpop]; rfl, hu ▸ hrefl.setStack _ _ rfl, rfl⟩
  | jp nnn => exact .inr ⟨.jump _, s, rfl, hrefl, rfl⟩
  | call nnn =>
    obtain ⟨hpush, -⟩ | ⟨u, hpush, -, -, -, -, hu⟩ := push_cases s s.pc
    · exact .inl ⟨_, by simp only [exec, execCall, hpush]; rfl⟩
    · exact .inr ⟨.jump _, u, by simp only [exec, execCall, hpush]; rfl, hu ▸ hrefl.setStack _ _ rfl, rfl⟩
  | jpV0 nnn => exact .inr ⟨.jump _, s, rfl, hrefl, rfl⟩
  | seImm x nn => exact .inr ⟨_, s, rfl, hrefl, mayAdvance_skipIf rfl _⟩
  | sneImm x nn => exact .inr ⟨_, s, rfl, hrefl, mayAdvance_skipIf rfl _⟩
  | seReg x y ign => exact .inr ⟨_, s, rfl, hrefl, mayAdvance_skipIf rfl _⟩
  | sneReg x y ign => exact .inr ⟨_, s, rfl, hrefl, mayAdvance_skipIf rfl _⟩
  | skp x ign =>
    cases hkey : s.keyOperand x with
    | none => exact .inl ⟨_, by simp only [exec, execSkp, hkey]; rfl⟩
    | some k => exact .inr ⟨_, s, by simp only [exec, execSkp, hkey]; rfl, hrefl, mayAdvance_skipIf rfl _⟩
  | sknp x ign =>
    cases hkey : s.keyOperand x with
    | none => exact .inl ⟨_, by simp only [exec, execSknp, hkey]; rfl⟩
    | some k => exact .inr ⟨_, s, by simp only [exec, execSknp, hkey]; rfl, hrefl, mayAdvance_skipIf rfl _⟩
  | ldVxK x ign =>
    cases hscan : s.scanKeys with
    | some k =>
      exact .inr ⟨.normal, _, by simp only [exec, execLdVxK, hscan]; rfl,
        hrefl.setReg _ (by simp [mayWriteReg]), trivial⟩
    | none =>
      cases hmode : s.params.keyWait with
      | scan => exact .inr ⟨.normal, s, by simp only [exec, execLdVxK, hscan, hmode], hrefl, trivial⟩
      | block => exact .inr ⟨.hold, s, by simp only [exec, execLdVxK, hscan, hmode], hrefl, rfl⟩
  | ldI nnn => exact .inr ⟨.normal, _, rfl, hrefl.setIndex _ rfl, trivial⟩
  | ldF x ign => exact .inr ⟨.normal, _, rfl, hrefl.setIndex _ rfl, trivial⟩
  | addI x ign =>
    exact .inr ⟨.normal, _, rfl, (hrefl.setReg _ (by simp [mayWriteReg])).setIndex _ rfl, trivial⟩
  | ldDtVx x => exact .inr ⟨.normal, _, rfl, hrefl.setTimers _ s.st, trivial⟩
  | ldStVx x ign => exact .inr ⟨.normal, _, rfl, hrefl.setTimers s.dt _, trivial⟩
  | drw x y n =>
    by_cases hfit : s.blockOk n.toNat = true
    · exact .inr ⟨.normal, _, if_pos hfit, (hrefl.setReg _ (by simp [mayWriteReg])).setDisplay _ _ rfl, trivial⟩
    · exact .inl ⟨_, if_neg hfit⟩
  | ldB x ign =>
    by_cases hfit : s.blockOk 3 = true
    · exact .inr ⟨.normal, _, if_pos hfit, hrefl.storeBlock _, trivial⟩
    · exact .inl ⟨_, if_neg hfit⟩
  | storeRegs x =>
    by_cases hfit : s.blockOk (x.toNat + 1) = true
    · exact .inr ⟨.normal, _, if_pos hfit, (hrefl.storeBlock _).setIndex _ rfl, trivial⟩
    · exact .inl ⟨_, if_neg hfit⟩
  | loadRegs x =>
    by_cases hfit : s.blockOk (x.toNat + 1) = true
    · refine .inr ⟨.normal, _, if_pos hfit, (hrefl.setRegs _ fun j hj => ?_).setIndex _ rfl, trivial⟩
      exact mayWriteReg_loadRegs (by simpa using hj)
    · exact .inl ⟨_, if_neg hfit⟩
  | addReg x y | subReg x y | subnReg x y | shr x ign | shl x ign =>
    exact .inr ⟨.normal, _, rfl,
      hrefl.setFlagReg _ _ (by simp [mayWriteReg]) (by simp [mayWriteReg]), trivial⟩
  | _ => exact .inr ⟨.normal, _, rfl, hrefl.setReg _ (by simp [mayWriteReg]), trivial⟩

/-! ### The same of the state that `exec` answers -/

/-- The state `exec` answers is the end of a step on allowed writes, with a diagnostic only where pc moves by 2. -/
theorem exec_next {i : Instr} {s t : State} (h : exec i s = .next t) :
    ∃ adv d u, t = endStep adv d u ∧ Writes i s u ∧ MayAdvance i adv ∧ (d ≠ none → adv = .normal) := by
  obtain ⟨c, hexec⟩ | ⟨adv, u, hexec, hw, hadv⟩ := exec_writes i s <;> rw [hexec] at h <;> cases h
  · exact ⟨.normal, _, s, rfl, Writes.refl i s, trivial, fun _ => rfl⟩
  · exact ⟨adv, none, u, rfl, hw, hadv, fun hd => absurd rfl hd⟩

/-- Settles O19: the registers after the step are those its handler left. -/
theorem registerWriters : Obligations.RegisterWriters := by
  unfold Obligations.RegisterWriters
  intro i s t k h hk
  obtain ⟨adv, d, u, rfl, hw, -⟩ := exec_next h
  rw [reg_endStep, hw.regs k hk]

/-- The keys, the signals and the parameters come through every instruction. -/
theorem exec_sameHostSide {i : Instr} {s t : State} (h : exec i s = .next t) : SameHostSide s t := by
  obtain ⟨adv, d, u, rfl, hw, -⟩ := exec_next h
  exact ⟨hw.keys, hw.halted, hw.fault, hw.loaded, hw.params⟩

/-- Settles O21: so are I, the stack, the display and what only the host and a fetch fault write. -/
theorem specialStateWriters : Obligations.SpecialStateWriters := by
  unfold Obligations.SpecialStateWriters
  intro i s t h
  have hhost := exec_sameHostSide h
  obtain ⟨adv, d, u, rfl, hw, -⟩ := exec_next h
  exact ⟨hw.index, hw.stack, hw.display, hhost⟩

/-! ### Where pc goes -/

theorem no_other_outcome_of_maySkip {i : Instr} (h : maySkip i = true) : mayJump i = false ∧ mayHold i = false := by
  cases i with
  | seImm | sneImm | seReg | sneReg | skp | sknp => exact ⟨rfl, rfl⟩
  | _ => cases h

theorem no_other_outcome_of_mayHold {i : Instr} (h : mayHold i = true) : mayJump i = false ∧ maySkip i = false := by
  cases i with
  | ldVxK => exact ⟨rfl, rfl⟩
  | _ => cases h

theorem not_mayAdvance_jump {i : Instr} {n : Nat} (h : mayJump i = false) : ¬ MayAdvance i (.jump n) := by
  simp [MayAdvance, h]

theorem not_mayAdvance_skip {i : Instr} (h : maySkip i = false) : ¬ MayAdvance i .skip := by
  simp [MayAdvance, h]

theorem not_mayAdvance_hold {i : Instr} (h : mayHold i = false) : ¬ MayAdvance i .hold := by
  simp [MayAdvance, h]

/-- Settles O22: the PC outcomes that an instruction is allowed, and the one that goes with a diagnostic. -/
theorem pcOutcomes : Obligations.PcOutcomes := by
  unfold Obligations.PcOutcomes
  intro i s t h
  obtain ⟨adv, d, u, rfl, hw, hadv, hdiag⟩ := exec_next h
  have hpc : (endStep adv d u).pc = nextPc s.pc adv := by rw [endStep_pc, hw.pc]
  have h2 (hn : adv = .normal) : PcPlus 2 s (endStep adv d u) := by
    rw [PcPlus, hpc, hn, nextPc_normal_toNat]
  have h4 (hn : adv = .skip) : PcPlus 4 s (endStep adv d u) := by
    rw [PcPlus, hpc, hn, nextPc_skip_toNat]
  refine ⟨fun hj hs hh => ?_, fun hs => ?_, fun hh => ?_, fun hd => h2 (hdiag hd)⟩
  · cases adv with
    | normal => exact h2 rfl
    | skip => exact absurd hadv (not_mayAdvance_skip hs)
    | jump n => exact absurd hadv (not_mayAdvance_jump hj)
    | hold => exact absurd hadv (not_mayAdvance_hold hh)
  · obtain ⟨hj, hh⟩ := no_other_outcome_of_maySkip hs
    cases adv with
    | normal => exact .inl (h2 rfl)
    | skip => exact .inr (h4 rfl)
    | jump n => exact absurd hadv (not_mayAdvance_jump hj)
    | hold => exact absurd hadv (not_mayAdvance_hold hh)
  · obtain ⟨hj, hs⟩ := no_other_outcome_of_mayHold hh
    cases adv with
    | normal => exact .inl (h2 rfl)
    | skip => exact absurd hadv (not_mayAdvance_skip hs)
    | jump n => exact absurd hadv (not_mayAdvance_jump hj)
    | hold => exact .inr hpc

/-! ### Memory -/

/-- Whatever the list of memory looks like: canonical or not. -/
theorem readByte_storeBlock_outside (s : State) (xs : List Byte) {a : Nat}
    (h : ¬(s.i.toNat ≤ a ∧ a < s.i.toNat + xs.length)) : (s.storeBlock xs).readByte a = s.readByte a :=
  read_writeBytes_outside xs s.mem s.i.toNat a h

/-- Settles O20: the two storing instructions keep every address outside their block at I, or report a decode error, and
the others store nothing. -/
theorem memoryWriters : Obligations.MemoryWriters := by
  unfold Obligations.MemoryWriters
  intro i s t a h hno
  cases i with
  | ldB x ign =>
    by_cases hfit : s.i.toNat + 3 ≤ 0x1000
    · rw [exec_ldB_of_fit x ign hfit] at h
      have hout : ¬(s.i.toNat ≤ a ∧ a < s.i.toNat + 3) := by simp [mayStoreAt] at hno; omega
      rw [readByte_eq_of_mem_eq (mem_of_complete h rfl), readByte_storeBlock_outside s _ hout]
    · rw [exec_ldB_of_not_fit x ign hfit] at h
      exact readByte_eq_of_mem_eq (mem_of_decodeError h) a
  | storeRegs x =>
    by_cases hfit : s.i.toNat + (x.toNat + 1) ≤ 0x1000
    · rw [exec_storeRegs_of_fit x hfit] at h
      have hout : ¬(s.i.toNat ≤ a ∧ a < s.i.toNat + (s.firstRegs (x.toNat + 1)).length) := by
        rw [length_firstRegs s _ x.isLt]; simp [mayStoreAt] at hno; omega
      rw [readByte_eq_of_mem_eq (mem_of_complete h rfl), readByte_advanceIndex, readByte_storeBlock_outside s _ hout]
    · rw [exec_storeRegs_of_not_fit x hfit] at h
      exact readByte_eq_of_mem_eq (mem_of_decodeError h) a
  | _ => exact readByte_eq_of_mem_eq (exec_mem_of_no_store h fun _ => rfl) a

end Sys2Proof.Machine
end

section
/-! PROOFS. The step around `exec` (40_execution_cycle.md R101, R102, R107; 60_exceptions.md R201, R206): the four things a
step of a loaded machine can be, and what each of them leaves. -/

namespace Sys2Proof.Machine

/-! ### What a step can be -/

/-- A step of a loaded machine is stuck, a fetch fault, or the decoder's answer to the word at pc. -/
theorem step_cases {s : State} (hl : s.loaded = true) :
    (s.halted = true ∧ step s = stuck s) ∨
    (s.halted = false ∧ 0xFFE < s.pc.toNat ∧ step s = fetchFault s) ∨
    (s.halted = false ∧ s.pc.toNat ≤ 0xFFE ∧ ∃ i, decode s.fetchWord = .op i ∧ step s = exec i s) ∨
    (s.halted = false ∧ s.pc.toNat ≤ 0xFFE ∧ (∃ e, decode s.fetchWord = .unrecognized e) ∧
      step s = decodeError .unrecognized s.fetchWord s) := by
  cases hh : s.halted with
  | true => exact .inl ⟨rfl, step_of_halted hl hh⟩
  | false =>
    refine .inr ?_
    by_cases hp : s.pc.toNat ≤ 0xFFE
    · refine .inr ?_
      have hstep := step_eq_decoded hl hh hp
      cases hdec : decode s.fetchWord with
      | op i => exact .inl ⟨rfl, hp, i, rfl, by rw [hstep, hdec]⟩
      | unrecognized e => exact .inr ⟨rfl, hp, ⟨e, rfl⟩, by rw [hstep, hdec]⟩
    · exact .inl ⟨rfl, by omega, step_of_fetchFault hl hh (by omega)⟩

theorem step_of_not_loaded {s : State} (hl : s.loaded = false) : step s = .refused .notLoaded :=
  if_neg (by simp [hl])

/-- Settles O5: `fetchWord` is the word of the two bytes at pc. -/
theorem stepRunsDecodedInstruction : Obligations.StepRunsDecodedInstruction := by
  unfold Obligations.StepRunsDecodedInstruction
  intro s i hl hh hp hdec
  have hword : decode s.fetchWord = .op i := hdec
  rw [step_eq_decoded hl hh hp, hword]

/-- Settles O6: the refusal, and the step that writes outputs only. -/
theorem stepRefusedOrWithoutEffect : Obligations.StepRefusedOrWithoutEffect := by
  unfold Obligations.StepRefusedOrWithoutEffect
  exact fun s => ⟨step_of_not_loaded, fun hl hh => ⟨_, step_of_halted hl hh, rfl, rfl, rfl⟩⟩

theorem exec_answers_next (i : Instr) (s : State) : ∃ t, exec i s = .next t := by
  obtain ⟨c, hexec⟩ | ⟨adv, u, hexec, -⟩ := exec_writes i s
  · exact ⟨_, hexec⟩
  · exact ⟨_, hexec⟩

/-- Settles O8: each of the four things a step can be answers a next state. -/
theorem loadedMachineAlwaysSteps : Obligations.LoadedMachineAlwaysSteps := by
  unfold Obligations.LoadedMachineAlwaysSteps
  intro s hl
  obtain ⟨-, h⟩ | ⟨-, -, h⟩ | ⟨-, -, i, -, h⟩ | ⟨-, -, -, h⟩ := step_cases hl <;> rw [h]
  · exact ⟨_, rfl⟩
  · exact ⟨_, rfl⟩
  · exact exec_answers_next i s
  · exact ⟨_, rfl⟩

/-! ### Decode errors -/

theorem exec_of_errorCause {i : Instr} {s : State} {c : DiagCode} (h : errorCause i s = some c) :
    exec i s = decodeError c (encode i) s := by
  obtain ⟨c', hc, hexec⟩ | ⟨hnone, -⟩ := exec_by_errorCause i s
  · rw [hc] at h; cases h; exact hexec
  · rw [hnone] at h; cases h

/-- A cause of the table, found in the fetched word, makes the step the shared decode error (R203). -/
theorem step_of_wordCause {s : State} {c : DiagCode} (hl : s.loaded = true) (hh : s.halted = false)
    (hp : s.pc.toNat ≤ 0xFFE) (hc : wordCause s.fetchWord s = some c) : step s = decodeError c s.fetchWord s := by
  rw [step_eq_decoded hl hh hp]
  cases hdec : decode s.fetchWord with
  | op i =>
    simp only [wordCause, hdec] at hc
    simp only [exec_of_errorCause hc, encode_of_decode hdec]
  | unrecognized e =>
    simp only [wordCause, hdec, Option.some.injEq] at hc
    rw [hc]

/-- Settles O10: the step is the shared decode error. -/
theorem decodeErrorWritesNothing : Obligations.DecodeErrorWritesNothing := by
  unfold Obligations.DecodeErrorWritesNothing
  intro s c hl hh hp hc
  rw [step_of_wordCause hl hh hp hc]
  exact decodeError_spec c s.fetchWord s

/-! ### A machine that has halted -/

theorem run_succ_of_step {s t : State} (h : step s = .next t) (n : Nat) :
    Sys2Proof.core.run (n + 1) s = Sys2Proof.core.run n t := by
  have hstep : Sys2Proof.core.step s = .next t := h
  simp only [Host.Core.run, hstep]

/-- Any number of steps of a state that a step leaves alone. -/
theorem run_of_step_self {s : State} (h : step s = .next s) (n : Nat) : Sys2Proof.core.run n s = .next s := by
  induction n with
  | zero => rfl
  | succ n ih => exact (run_succ_of_step h n).trans ih

/-- The first step of a halted machine clears the outputs, and the later ones find them clear. -/
theorem run_succ_of_halted {s : State} (hl : s.loaded = true) (hh : s.halted = true) (n : Nat) :
    Sys2Proof.core.run (n + 1) s = .next { s with beep := false, diag := none, rndIn := none } := by
  have hagain : step { s with beep := false, diag := none, rndIn := none } = _ := step_of_halted hl hh
  exact (run_succ_of_step (step_of_halted hl hh) n).trans (run_of_step_self hagain n)

/-- Settles O7: the fetch fault is one next state, the step after it clears the diagnostic, and the steps after that find a
state that stays as it is. -/
theorem fetchFaultHaltsForGood : Obligations.FetchFaultHaltsForGood := by
  unfold Obligations.FetchFaultHaltsForGood
  intro s hl hh hp
  refine ⟨_, step_of_fetchFault hl hh hp, rfl, rfl, rfl, rfl, rfl, fun n => ?_⟩
  cases n with
  | zero => exact ⟨_, rfl, rfl, fun h => absurd h (Nat.lt_irrefl 0)⟩
  | succ n =>
    refine ⟨_, run_succ_of_halted ?_ rfl n, rfl, fun _ => rfl⟩
    exact hl

/-! ### The random byte -/

/-- The state with the byte that the host gives with the coming step replaced by any other. -/
def State.withRnd (s : State) (r : Option Byte) : State := { s with rndIn := r }

theorem setRegs_withRnd (s : State) (k : Nat) (bs : List Byte) (r : Option Byte) :
    (s.withRnd r).setRegs k bs = (s.setRegs k bs).withRnd r := by
  induction bs generalizing s k with
  | nil => rfl
  | cons x xs ih => exact ih (s.setReg (BitVec.ofNat 4 k) x) (k + 1)

theorem execRet_withRnd (ign : Byte) (s : State) (r : Option Byte) : execRet ign (s.withRnd r) = execRet ign s := by
  by_cases hocc : 0 < s.sp.val
  · have hocc' : 0 < (s.withRnd r).sp.val := hocc
    simp only [execRet, State.pop, dif_pos hocc, dif_pos hocc']; rfl
  · have hocc' : ¬ 0 < (s.withRnd r).sp.val := hocc
    simp only [execRet, State.pop, dif_neg hocc, dif_neg hocc']; rfl

theorem execCall_withRnd (nnn : Addr) (s : State) (r : Option Byte) : execCall nnn (s.withRnd r) = execCall nnn s := by
  by_cases hroom : s.sp.val < 16
  · have hroom' : (s.withRnd r).sp.val < 16 := hroom
    simp only [execCall, State.push, dif_pos hroom, dif_pos hroom']; rfl
  · have hroom' : ¬ (s.withRnd r).sp.val < 16 := hroom
    simp only [execCall, State.push, dif_neg hroom, dif_neg hroom']; rfl

theorem execLoadRegs_withRnd (x : Nibble) (s : State) (r : Option Byte) :
    execLoadRegs x (s.withRnd r) = execLoadRegs x s := by
  rw [execLoadRegs, execLoadRegs, setRegs_withRnd]; rfl

/-- The end of a step uses the byte up, and RND is the one handler that reads it. -/
theorem exec_withRnd {i : Instr} (hno : ∀ x nn, i ≠ .rnd x nn) (s : State) (r : Option Byte) :
    exec i (s.withRnd r) = exec i s := by
  cases i with
  | rnd x nn => exact absurd rfl (hno x nn)
  | ret ign => exact execRet_withRnd ign s r
  | call nnn => exact execCall_withRnd nnn s r
  | loadRegs x => exact execLoadRegs_withRnd x s r
  | _ => rfl

theorem step_withRnd {s : State} (hno : ∀ x nn, decode s.fetchWord ≠ .op (.rnd x nn)) (r : Option Byte) :
    step (s.withRnd r) = step s := by
  cases hl : s.loaded with
  | false =>
    have hl' : (s.withRnd r).loaded = false := hl
    rw [step_of_not_loaded hl, step_of_not_loaded hl']
  | true =>
    have hl' : (s.withRnd r).loaded = true := hl
    obtain ⟨hh, h⟩ | ⟨hh, hp, h⟩ | ⟨hh, hp, i, hdec, h⟩ | ⟨hh, hp, ⟨e, hdec⟩, h⟩ := step_cases hl <;> rw [h]
    · exact step_of_halted hl' hh
    · exact step_of_fetchFault hl' hh hp
    · have hdec' : decode (s.withRnd r).fetchWord = .op i := hdec
      rw [step_eq_decoded hl' hh hp, hdec']
      exact exec_withRnd (fun x nn hi => hno x nn (by rw [hdec, hi])) s r
    · have hdec' : decode (s.withRnd r).fetchWord = .unrecognized e := hdec
      rw [step_eq_decoded hl' hh hp, hdec']; rfl

/-- Settles O13: with either byte the step is that of the state as it stands. -/
theorem onlyRndReadsTheRandomByte : Obligations.OnlyRndReadsTheRandomByte := by
  unfold Obligations.OnlyRndReadsTheRandomByte
  intro s a b hno
  exact (step_withRnd hno (some a)).trans (step_withRnd hno (some b)).symm

end Sys2Proof.Machine
end

section
/-! PROOFS. SYS, CALL and JP V0 (41_control_flow.md R121, R123, R124), and a CALL with the RET that answers it. -/

namespace Sys2Proof.Machine

/-! ### JP V0 -/

theorem exec_jpV0 (nnn : Addr) (s : State) :
    exec (.jpV0 nnn) s = .next (endStep (.jump (nnn.toNat + (s.reg 0).toNat)) none s) := rfl

/-- Settles O24: a 12-bit literal and a byte add up to less than 2^16. -/
theorem jumpWithOffsetAddsV0 : Obligations.JumpWithOffsetAddsV0 := by
  unfold Obligations.JumpWithOffsetAddsV0
  refine fun nnn => ⟨decode_jpV0 nnn, fun s =>
    ⟨_, exec_jpV0 nnn s, ?_, onlyRegs_endStep _ _ _ s, ticked_endStep _ _ rfl rfl, rfl⟩⟩
  have hsmall : nnn.toNat + (s.reg 0).toNat < 0x10000 := by
    have := nnn.isLt; have := (s.reg 0).isLt; omega
  rw [endStep_jump_pc_toNat, Nat.mod_eq_of_lt hsmall]

/-! ### SYS -/

/-- Settles O28: the low nibble of NNN decides between the three rows of table T0, and SYS is the shared decode error. -/
theorem sysIsReportedNoOp : Obligations.SysIsReportedNoOp := by
  unfold Obligations.SysIsReportedNoOp
  refine fun nnn => ⟨decode_sys, fun h0 => ?_, fun hE => ?_, decodeError_spec .unrecognized _⟩
  · rw [← fieldN_addr_toNat 0x0#4 nnn] at h0
    exact ⟨fieldT0Ign (0x0#4 ++ nnn), by simp only [decode_top_zero, decodeT0, h0]⟩
  · rw [← fieldN_addr_toNat 0x0#4 nnn] at hE
    exact ⟨fieldT0Ign (0x0#4 ++ nnn), by simp only [decode_top_zero, decodeT0, hE]⟩

/-! ### CALL -/

/-- CALL with a free slot puts its own address there, counts one slot more, writes nothing else, and jumps. -/
theorem exec_call_of_room (nnn : Addr) {s : State} (h : s.sp.val < 16) :
    ∃ st p, exec (.call nnn) s = complete (.jump nnn.toNat) { s with stack := st, sp := p } ∧ p.val = s.sp.val + 1 ∧
      ({ s with stack := st, sp := p } : State).slot s.sp.val = s.pc ∧
      ∀ k, k ≠ s.sp.val → ({ s with stack := st, sp := p } : State).slot k = s.slot k := by
  obtain ⟨-, hfull⟩ | ⟨u, hpush, -, hsp, hslot, hothers, hu⟩ := push_cases s s.pc
  · omega
  · exact ⟨u.stack, u.sp, by simp only [exec, execCall, hpush]; rw [← hu], hsp, hslot, hothers⟩

theorem exec_call_of_full (nnn : Addr) {s : State} (h : s.sp.val = 16) :
    exec (.call nnn) s = decodeError .stackOverflow (0x2#4 ++ nnn) s := by
  obtain ⟨-, hexec⟩ | ⟨hroom, -⟩ := exec_call_cases nnn s
  · exact hexec
  · exact absurd h hroom

/-- Settles O25: a push finds a free slot for the address of the CALL, or finds none and CALL is the shared decode error. -/
theorem callPushesItsOwnAddress : Obligations.CallPushesItsOwnAddress := by
  unfold Obligations.CallPushesItsOwnAddress
  refine fun nnn => ⟨decode_call nnn, fun s => ⟨fun hroom => ?_, fun hfull => ?_⟩⟩
  · obtain ⟨st, p, hexec, hp, hslot, hothers⟩ := exec_call_of_room nnn hroom
    have hsmall : nnn.toNat < 0x10000 := by have := nnn.isLt; omega
    obtain ⟨hregs, hi, hmem, -, hdisp, hhost⟩ :=
      onlyRegs_endStep [] (.jump nnn.toNat) none { s with stack := st, sp := p }
    exact ⟨_, hexec, hslot, hothers, hp, by rw [endStep_jump_pc_toNat, Nat.mod_eq_of_lt hsmall], hregs, hi, hmem,
      hdisp, hhost, ticked_endStep _ _ rfl rfl, rfl⟩
  · rw [exec_call_of_full nnn hfull]
    exact decodeError_spec .stackOverflow _ s

/-- Settles O27: CALL leaves its own address in the slot that RET reads, and counts up the slot that RET counts off. -/
theorem callThenRetComesBack : Obligations.CallThenRetComesBack := by
  unfold Obligations.CallThenRetComesBack
  intro nnn ign s t v hroom hcall hsp hslot
  obtain ⟨st, p, hexec, hp, hpushed, -⟩ := exec_call_of_room nnn hroom
  rw [hexec] at hcall
  cases hcall
  have hdepth : v.sp.val = s.sp.val + 1 := by rw [hsp]; exact hp
  have htop : v.slot (v.sp.val - 1) = s.pc := by rw [hdepth, Nat.add_sub_cancel, hslot]; exact hpushed
  obtain ⟨q, hq, hret⟩ := exec_ret_of_occupied ign (s := v) (by omega)
  refine ⟨_, hret, ?_, Fin.ext ?_⟩
  · rw [endStep_jump_pc_toNat, htop]
  · show q.val = s.sp.val
    omega

end Sys2Proof.Machine
end

section
/-! PROOFS. Every step keeps the invariant (20_memory.md section 1, 10_state.md sections 3 to 7, 60_exceptions.md R206): one
lemma for each part of it that an instruction can touch, then the four things a step can be. -/

namespace Sys2Proof.Machine

/-! ### What an instruction does to each part -/

/-- Memory stays canonical: a block is stored only where it fits (20_memory.md R59). -/
theorem exec_keeps_wf {i : Instr} {s t : State} (h : exec i s = .next t) (hwf : Memory.wf s.mem) :
    Memory.wf t.mem := by
  cases i with
  | ldB x ign =>
    by_cases hfit : s.i.toNat + 3 ≤ 0x1000
    · rw [exec_ldB_of_fit x ign hfit] at h
      rw [mem_of_complete h rfl]
      exact writeBytes_wf (bcdDigits (s.reg x)) s.mem s.i.toNat hfit hwf
    · rw [exec_ldB_of_not_fit x ign hfit] at h
      rwa [mem_of_decodeError h]
  | storeRegs x =>
    by_cases hfit : s.i.toNat + (x.toNat + 1) ≤ 0x1000
    · have hlen : (s.firstRegs (x.toNat + 1)).length = x.toNat + 1 := length_firstRegs s _ x.isLt
      rw [exec_storeRegs_of_fit x hfit] at h
      rw [mem_of_complete h rfl]
      exact writeBytes_wf (s.firstRegs (x.toNat + 1)) s.mem s.i.toNat (by rwa [hlen]) hwf
    · rw [exec_storeRegs_of_not_fit x hfit] at h
      rwa [mem_of_decodeError h]
  | _ => rwa [exec_mem_of_no_store h fun _ => rfl]

/-- Every saved pc is one that a CALL was fetched from, or could have been. -/
def SavedPcsFetchable (s : State) : Prop := ∀ k, k < s.sp.val → (s.slot k).toNat ≤ 0xFFE

theorem savedPcsFetchable_of_sameStack {s t : State} (h : SameStack s t) (hs : SavedPcsFetchable s) :
    SavedPcsFetchable t := by
  obtain ⟨hstack, hsp⟩ := h
  intro k hk
  rw [hsp] at hk
  simpa only [State.slot, hstack] using hs k hk

/-- CALL saves the pc it was fetched from, RET only counts down, and the others leave the stack alone. -/
theorem exec_keeps_savedPcsFetchable {i : Instr} {s t : State} (h : exec i s = .next t) (hpc : s.pc.toNat ≤ 0xFFE)
    (hs : SavedPcsFetchable s) : SavedPcsFetchable t := by
  cases i with
  | call nnn =>
    by_cases hroom : s.sp.val < 16
    · obtain ⟨st, p, hexec, hp, hslot, hothers⟩ := exec_call_of_room nnn hroom
      rw [hexec] at h
      cases h
      intro k hk
      have hk' : k < s.sp.val + 1 := hp ▸ hk
      by_cases htop : k = s.sp.val
      · exact htop ▸ hslot.symm ▸ hpc
      · exact (hothers k htop).symm ▸ hs k (by omega)
    · rw [exec_call_of_full nnn (by omega)] at h
      cases h
      exact hs
  | ret ign =>
    by_cases hocc : 0 < s.sp.val
    · obtain ⟨p, hp, hexec⟩ := exec_ret_of_occupied ign hocc
      rw [hexec] at h
      cases h
      intro k hk
      have hk' : k < s.sp.val - 1 := hp ▸ hk
      exact hs k (by omega)
    · rw [exec_ret_of_empty ign (by omega)] at h
      cases h
      exact hs
  | _ =>
    obtain ⟨adv, d, u, rfl, hw, -⟩ := exec_next h
    exact savedPcsFetchable_of_sameStack (hw.stack rfl) hs

/-- An instruction that cannot jump moves pc by at most 4. -/
theorem exec_pc_le_of_no_jump {i : Instr} {s t : State} (h : exec i s = .next t) (hj : mayJump i = false)
    (hpc : s.pc.toNat ≤ 0xFFE) : t.pc.toNat ≤ 0x10FE := by
  obtain ⟨adv, d, u, rfl, hw, hadv, -⟩ := exec_next h
  rw [endStep_pc, hw.pc]
  cases adv with
  | normal => rw [nextPc_normal_toNat]; omega
  | skip => rw [nextPc_skip_toNat]; omega
  | jump n => exact absurd hadv (not_mayAdvance_jump hj)
  | hold => rw [nextPc_hold]; omega

/-- The farthest jump is JP V0: a 12-bit literal and a byte add up to at most 0x10FE (R123). -/
theorem exec_keeps_pcBound {i : Instr} {s t : State} (h : exec i s = .next t) (hpc : s.pc.toNat ≤ 0xFFE)
    (hs : SavedPcsFetchable s) : t.pc.toNat ≤ 0x10FE := by
  cases i with
  | jp nnn =>
    rw [exec_jp] at h
    cases h
    rw [endStep_jump_pc_toNat]
    have := nnn.isLt
    omega
  | jpV0 nnn =>
    rw [exec_jpV0] at h
    cases h
    rw [endStep_jump_pc_toNat]
    have := nnn.isLt
    have := (s.reg 0).isLt
    omega
  | call nnn =>
    by_cases hroom : s.sp.val < 16
    · obtain ⟨st, p, hexec, -⟩ := exec_call_of_room nnn hroom
      rw [hexec] at h
      cases h
      rw [endStep_jump_pc_toNat]
      have := nnn.isLt
      omega
    · rw [exec_call_of_full nnn (by omega)] at h
      cases h
      rw [endStep_pc, nextPc_normal_toNat]
      omega
  | ret ign =>
    by_cases hocc : 0 < s.sp.val
    · obtain ⟨p, -, hexec⟩ := exec_ret_of_occupied ign hocc
      rw [hexec] at h
      cases h
      rw [endStep_jump_pc_toNat]
      have := hs (s.sp.val - 1) (by omega)
      omega
    · rw [exec_ret_of_empty ign (by omega)] at h
      cases h
      rw [endStep_pc, nextPc_normal_toNat]
      omega
  | _ => exact exec_pc_le_of_no_jump h rfl hpc

/-! ### Every step -/

/-- A performed instruction finds and leaves a machine that is not halted. -/
theorem exec_keeps_inv {i : Instr} {s t : State} (hinv : Inv s) (hh : s.halted = false) (hpc : s.pc.toNat ≤ 0xFFE)
    (h : exec i s = .next t) : Inv t := by
  obtain ⟨-, hhalted, hfault, -, -⟩ := exec_sameHostSide h
  have hrun : ¬ t.halted = true := by simp [hhalted, hh]
  exact {
    memCanonical := exec_keeps_wf h hinv.memCanonical
    haltedIffFault := by rw [hhalted, hfault, hinv.haltedIffFault]
    haltedLoaded := fun ht => absurd ht hrun
    haltedPc := fun ht => absurd ht hrun
    pcBound := exec_keeps_pcBound h hpc hinv.savedPcBound
    savedPcBound := exec_keeps_savedPcsFetchable h hpc hinv.savedPcBound }

theorem decodeError_keeps_inv {c : DiagCode} {w : Word} {s t : State} (hinv : Inv s) (hh : s.halted = false)
    (hpc : s.pc.toNat ≤ 0xFFE) (h : decodeError c w s = .next t) : Inv t := by
  cases h
  have hrun : ¬ s.halted = true := by simp [hh]
  exact {
    memCanonical := hinv.memCanonical
    haltedIffFault := hinv.haltedIffFault
    haltedLoaded := fun ht => absurd ht hrun
    haltedPc := fun ht => absurd ht hrun
    pcBound := by rw [endStep_pc, nextPc_normal_toNat]; omega
    savedPcBound := hinv.savedPcBound }

/-- The invariant says nothing of the keys, the dirty flag and the model's own fields. -/
theorem inv_setOtherFields {s : State} (h : Inv s) (k : Vector Bool 16) (b e : Bool) (d : Option Diag)
    (r : Option Byte) : Inv { s with keys := k, dirty := b, beep := e, diag := d, rndIn := r } :=
  ⟨h.memCanonical, h.haltedIffFault, h.haltedLoaded, h.haltedPc, h.pcBound, h.savedPcBound⟩

theorem fetchFault_keeps_inv {s t : State} (hinv : Inv s) (hl : s.loaded = true) (hpc : 0xFFE < s.pc.toNat)
    (h : fetchFault s = .next t) : Inv t := by
  cases h
  exact ⟨hinv.memCanonical, rfl, fun _ => hl, fun _ => hpc, hinv.pcBound, hinv.savedPcBound⟩

/-- Settles O14: each of the four things a step can be keeps the invariant. -/
theorem stepKeepsInvariant : Obligations.StepKeepsInvariant := by
  unfold Obligations.StepKeepsInvariant
  intro s t hinv h
  have hl := loaded_of_step h
  obtain ⟨-, hstep⟩ | ⟨-, hpc, hstep⟩ | ⟨hh, hpc, i, -, hstep⟩ | ⟨hh, hpc, -, hstep⟩ := step_cases hl <;>
    rw [hstep] at h
  · cases h; exact inv_setOtherFields hinv s.keys s.dirty _ _ _
  · exact fetchFault_keeps_inv hinv hl hpc h
  · exact exec_keeps_inv hinv hh hpc h
  · exact decodeError_keeps_inv hinv hh hpc h

end Sys2Proof.Machine
end

section
/-! PROOFS. LoadROM (70_reset_and_hazards.md R232), and what every operation of the host keeps: the invariant, and the halt
signal (60_exceptions.md R213, R214). -/

namespace Sys2Proof.Machine

/-! ### LoadROM -/

theorem loadRom_of_loaded (rom : List Byte) {s : State} (h : s.loaded = true) :
    loadRom rom s = .refused .alreadyLoaded := if_pos h

theorem loadRom_of_too_large {rom : List Byte} {s : State} (h : s.loaded = false) (hlen : rom.length > 3584) :
    loadRom rom s = .fault .romTooLarge := by
  have hload : loadRom rom s = _ := if_neg (by simp [h])
  exact hload.trans (if_pos hlen)

theorem loadRom_of_fit {rom : List Byte} {s : State} (h : s.loaded = false) (hlen : rom.length ≤ 3584) :
    loadRom rom s = .next { s.storeBytes 0x200 rom with loaded := true } := by
  have hload : loadRom rom s = _ := if_neg (by simp [h])
  exact hload.trans (if_neg (Nat.not_lt.2 hlen))

/-- A load that answers a next state is the load of a ROM that fits into a machine without one. -/
theorem loadRom_next {rom : List Byte} {s t : State} (h : loadRom rom s = .next t) :
    s.loaded = false ∧ rom.length ≤ 3584 ∧ t = { s.storeBytes 0x200 rom with loaded := true } := by
  cases hl : s.loaded with
  | true => rw [loadRom_of_loaded rom hl] at h; cases h
  | false =>
    by_cases hlen : rom.length ≤ 3584
    · rw [loadRom_of_fit hl hlen] at h; cases h; exact ⟨rfl, hlen, rfl⟩
    · rw [loadRom_of_too_large hl (by omega)] at h; cases h

/-- Settles O52: the three equations of LoadROM, and the bytes that its stores leave. -/
theorem loadRomLoadsVerbatim : Obligations.LoadRomLoadsVerbatim := by
  unfold Obligations.LoadRomLoadsVerbatim
  refine fun rom s hwf => ⟨loadRom_of_loaded rom, loadRom_of_too_large, fun hl hlen =>
    ⟨_, loadRom_of_fit hl hlen, rfl, fun k hk => ?_, fun a ha => ?_, rfl⟩⟩
  · have hread := read_writeBytes rom s.mem 0x200 (0x200 + k) (by omega) hwf
    rw [dif_pos (by omega)] at hread
    exact hread.trans (by simp)
  · exact read_writeBytes_outside rom s.mem 0x200 a ha

/-- A machine that has no ROM yet has not halted. -/
theorem loadRom_keeps_inv {rom : List Byte} {s t : State} (hinv : Inv s) (h : loadRom rom s = .next t) : Inv t := by
  obtain ⟨hl, hlen, rfl⟩ := loadRom_next h
  exact {
    memCanonical := writeBytes_wf rom s.mem 0x200 (by omega) hinv.memCanonical
    haltedIffFault := hinv.haltedIffFault
    haltedLoaded := fun _ => rfl
    haltedPc := hinv.haltedPc
    pcBound := hinv.pcBound
    savedPcBound := hinv.savedPcBound }

/-! ### Every operation of the host, and every sequence of them -/

theorem hostStep_keeps_inv {o : HostOp} {s t : State} (hinv : Inv s) (h : hostStep o s = .next t) : Inv t := by
  cases o with
  | loadRom rom => exact loadRom_keeps_inv hinv h
  | step rnd => exact stepKeepsInvariant _ t (inv_setOtherFields hinv s.keys s.dirty s.beep s.diag (some rnd)) h
  | setKeys k => cases h; exact inv_setOtherFields hinv k s.dirty s.beep s.diag s.rndIn
  | consumeDisplay => cases h; exact inv_setOtherFields hinv s.keys false s.beep s.diag s.rndIn
  | readDisplay => cases h; exact hinv
  | readHalt => cases h; exact hinv

theorem hostRun_keeps_inv (os : List HostOp) {s : State} (hinv : Inv s) : Inv (hostRun os s) := by
  induction os generalizing s with
  | nil => exact hinv
  | cons o os ih =>
    simp only [hostRun]
    cases h : hostStep o s with
    | next t => exact ih (hostStep_keeps_inv hinv h)
    | fault r => exact ih hinv
    | refused r => exact ih hinv

/-- No slot is occupied, so no saved pc is bounded. -/
theorem inv_construct (font : Vector Byte 80) (p : Params) : Inv (State.construct font p) where
  memCanonical := writeBytes_wf font.toList [] 0 (by simp) wf_nil
  haltedIffFault := rfl
  haltedLoaded h := by cases h
  haltedPc h := by cases h
  pcBound := show (0x200 : Word).toNat ≤ 0x10FE by decide
  savedPcBound k hk := absurd hk (Nat.not_lt_zero k)

/-- Settles O15: as after any construction, with an empty memory list. -/
theorem resetHasInvariant : Obligations.ResetHasInvariant := by
  unfold Obligations.ResetHasInvariant
  have h := inv_construct standardFont Params.default
  exact ⟨wf_nil, h.haltedIffFault, h.haltedLoaded, h.haltedPc, h.pcBound, h.savedPcBound⟩

/-- Settles O16: one operation at a time, from the state after construction. -/
theorem everyReachableStateHasInvariant : Obligations.EveryReachableStateHasInvariant := by
  unfold Obligations.EveryReachableStateHasInvariant
  exact ⟨fun _ _ _ => hostStep_keeps_inv, fun font p os => hostRun_keeps_inv os (inv_construct font p)⟩

/-! ### Halting -/

/-- A step that halts a running machine is the fetch fault, and no step un-halts one (R214, D28). -/
theorem halted_of_step {s t : State} (h : step s = .next t) :
    (s.halted = true → t.halted = true) ∧ (s.halted = false → t.halted = true → 0xFFE < s.pc.toNat) := by
  obtain ⟨hh, hstep⟩ | ⟨hh, hpc, hstep⟩ | ⟨hh, hpc, i, -, hstep⟩ | ⟨hh, hpc, -, hstep⟩ :=
    step_cases (loaded_of_step h) <;> rw [hstep] at h
  · cases h; exact ⟨id, fun hno => absurd hh (by simp [hno])⟩
  · exact ⟨fun hyes => absurd hyes (by simp [hh]), fun _ _ => hpc⟩
  · obtain ⟨-, hhalted, -⟩ := exec_sameHostSide h
    exact ⟨fun hyes => hhalted.trans hyes, fun hno ht => absurd ht (by simp [hhalted, hno])⟩
  · cases h; exact ⟨id, fun hno ht => absurd ht (by simp [hno])⟩

/-- Settles O17: the host's other operations do not write halted. -/
theorem haltedOnlyByFetchFault : Obligations.HaltedOnlyByFetchFault := by
  unfold Obligations.HaltedOnlyByFetchFault
  intro o s t h
  have hkept (heq : t.halted = s.halted) : (s.halted = true → t.halted = true) ∧
      (s.halted = false → t.halted = true → 0xFFE < s.pc.toNat ∧ ∃ rnd, o = .step rnd) :=
    ⟨fun hyes => heq.trans hyes, fun hno ht => absurd ht (by simp [heq, hno])⟩
  cases o with
  | step rnd =>
    obtain ⟨hstay, hset⟩ := halted_of_step (s := { s with rndIn := some rnd }) h
    exact ⟨hstay, fun hno ht => ⟨hset hno ht, rnd, rfl⟩⟩
  | loadRom rom => obtain ⟨-, -, rfl⟩ := loadRom_next h; exact hkept rfl
  | _ => cases h; exact hkept rfl

end Sys2Proof.Machine
end

section
/-! PROOFS. Memory as a canonical list of the bytes that differ from the construction contents (20_memory.md R50, R231): one
list for one content, and the state after construction. -/

namespace Sys2Proof.Machine

/-! ### One list for one content -/

theorem wf_tail {c : Host.Cell} {m : List Host.Cell} (h : Memory.wf (c :: m)) : Memory.wf m :=
  ⟨(List.pairwise_cons.1 h.1).2, fun d hd => h.2 d (List.mem_cons_of_mem c hd)⟩

@[simp] theorem read_cons_self (a : Nat) (x : Byte) (m : List Host.Cell) : Memory.read ((a, x) :: m) a = x := if_pos rfl

theorem read_cons_of_ne {a b : Nat} (x : Byte) (m : List Host.Cell) (h : b ≠ a) :
    Memory.read ((a, x) :: m) b = Memory.read m b := if_neg h

/-- The first address of a canonical list does not read as the construction contents there. -/
theorem read_head_ne_initByte {a : Nat} {x : Byte} {m : List Host.Cell} (h : Memory.wf ((a, x) :: m)) :
    Memory.read ((a, x) :: m) a ≠ initByte a := by
  rw [read_cons_self]
  exact (h.2 (a, x) List.mem_cons_self).2

/-- An address up to the first one of a canonical list reads, past that one, as the construction contents. -/
theorem read_tail_of_le {a b : Nat} {x : Byte} {m : List Host.Cell} (h : Memory.wf ((a, x) :: m)) (hb : b ≤ a) :
    Memory.read m b = initByte b :=
  read_of_forall_lt m b fun d hd => Nat.lt_of_le_of_lt hb ((List.pairwise_cons.1 h.1).1 d hd)

/-- A canonical list that reads as another does not start above it: the other's first address tells them apart. -/
theorem head_le_of_read_eq {a b : Nat} {x y : Byte} {m n : List Host.Cell} (hm : Memory.wf ((a, x) :: m))
    (hn : Memory.wf ((b, y) :: n)) (h : ∀ c, Memory.read ((a, x) :: m) c = Memory.read ((b, y) :: n) c) : a ≤ b := by
  by_contra hlt
  have hinit : Memory.read ((a, x) :: m) b = initByte b := by
    rw [read_cons_of_ne x m (by omega), read_tail_of_le hm (by omega)]
  exact read_head_ne_initByte hn ((h b).symm.trans hinit)

/-- With the same first address, the rests of two lists that read alike read alike: up to that address as construction left
it, past it as the whole lists. -/
theorem read_tail_eq {a : Nat} {x y : Byte} {m n : List Host.Cell} (hm : Memory.wf ((a, x) :: m))
    (hn : Memory.wf ((a, y) :: n)) (h : ∀ c, Memory.read ((a, x) :: m) c = Memory.read ((a, y) :: n) c) (c : Nat) :
    Memory.read m c = Memory.read n c := by
  by_cases hc : c ≤ a
  · rw [read_tail_of_le hm hc, read_tail_of_le hn hc]
  · have hne : c ≠ a := by omega
    rw [← read_cons_of_ne x m hne, h c, read_cons_of_ne y n hne]

/-- Settles O18: along both lists at once, the first entries agree in address and byte. -/
theorem canonicalMemoriesAreEqualData : Obligations.CanonicalMemoriesAreEqualData := by
  unfold Obligations.CanonicalMemoriesAreEqualData
  intro m
  induction m with
  | nil =>
    intro n _ hn h
    cases n with
    | nil => rfl
    | cons d n => exact absurd (h d.1).symm (read_head_ne_initByte hn)
  | cons c m ih =>
    intro n hm hn h
    obtain ⟨a, x⟩ := c
    cases n with
    | nil => exact absurd (h a) (read_head_ne_initByte hm)
    | cons d n =>
      obtain ⟨b, y⟩ := d
      obtain rfl : a = b := Nat.le_antisymm (head_le_of_read_eq hm hn h) (head_le_of_read_eq hn hm fun c => (h c).symm)
      obtain rfl : x = y := by simpa using h a
      rw [ih n (wf_tail hm) (wf_tail hn) (read_tail_eq hm hn h)]

/-! ### The state after construction -/

theorem initByte_of_lt {a : Nat} (h : a < 80) : initByte a = standardFont[a] := by
  simp [initByte, h]

theorem initByte_of_ge {a : Nat} (h : 80 ≤ a) : initByte a = 0 := by
  simp [initByte, h]

/-- A byte that an address reads as anyway is not listed. -/
theorem writeBytes_initBytes (xs : List Byte) : ∀ a : Nat, (∀ k (h : k < xs.length), xs[k] = initByte (a + k)) →
    Memory.writeBytes [] a xs = [] := by
  induction xs with
  | nil => intro a _; rfl
  | cons x xs ih =>
    intro a h
    have hx : x = initByte a := h 0 (Nat.zero_lt_succ _)
    have hwrite : Memory.write [] a x = [] := if_pos hx
    rw [Memory.writeBytes, hwrite]
    refine ih (a + 1) fun k hk => ?_
    rw [Nat.add_assoc, Nat.add_comm 1 k]
    exact h (k + 1) (Nat.succ_lt_succ hk)

theorem construct_standardFont : State.construct standardFont Params.default = State.reset := by
  have hmem : Memory.writeBytes [] 0 standardFont.toList = [] :=
    writeBytes_initBytes _ 0 fun k hk => by
      have hk' : k < 80 := by simpa using hk
      rw [Nat.zero_add, initByte_of_lt hk', Vector.getElem_toList]
  rw [State.construct, hmem]
  rfl

/-- The font's bytes, and the construction contents past them. -/
theorem readByte_construct (font : Vector Byte 80) (p : Params) (a : Nat) :
    (State.construct font p).readByte a = if h : a < 80 then font[a] else 0 := by
  have hread := read_writeBytes font.toList [] 0 a (by simp) wf_nil
  by_cases h : a < 80
  · rw [dif_pos (by simpa using h)] at hread
    rw [dif_pos h]
    exact hread.trans (by simp)
  · rw [dif_neg (by simpa using h)] at hread
    rw [dif_neg h]
    exact hread.trans (initByte_of_ge (by omega))

/-- Settles O51: the fields by the definition of construction, memory as the font's stores leave it. -/
theorem constructionState : Obligations.ConstructionState := by
  unfold Obligations.ConstructionState
  refine ⟨?_, construct_standardFont, rfl⟩
  rintro font p s rfl
  refine ⟨fun k => ?_, rfl, rfl, rfl, fun k hk => ?_, rfl, rfl, fun x y _ _ => cell_zero x y, rfl, fun k => ?_, rfl, rfl,
    rfl, rfl, fun a => ?_, fun a ha => ?_⟩
  · exact Vector.getElem_replicate _
  · simp [State.slot, State.construct, State.reset, hk]
  · exact Vector.getElem_replicate _
  · exact (readByte_construct font p a).trans (dif_pos a.isLt)
  · exact (readByte_construct font p a).trans (dif_neg (by omega))

end Sys2Proof.Machine
end

section
/-! PROOFS. LD, OR, AND, XOR, SHR and SHL (43_alu.md R141 to R144, R147, R149), and ADD I, LD F and RND
(44_immediate_index_random.md R163, R164, 47_memory_transfer.md R190): each is a step that writes a register, a flag and a
register, or I. -/

namespace Sys2Proof.Machine

/-! ### LD, OR, AND, XOR -/

/-- A step that writes one register, told by the value it has as a number. -/
theorem complete_setReg_toNat_spec {s : State} {x : Nibble} {b : Byte} {v : Nat} (hb : b.toNat = v) :
    ∃ t, complete .normal (s.setReg x b) = .next t ∧ (t.reg x).toNat = v ∧ OnlyRegs [x] s t ∧ EndsNormally 2 s t := by
  obtain ⟨t, hexec, hres, hframe⟩ := complete_setReg_spec s x b
  exact ⟨t, hexec, by rw [hres, hb], hframe⟩

/-- Settles O32: each writes V[X] alone, and so no flag. -/
theorem copyAndLogic : Obligations.CopyAndLogic := by
  unfold Obligations.CopyAndLogic
  exact fun x y => ⟨decode_ldReg x y, decode_orReg x y, decode_andReg x y, decode_xorReg x y, fun s =>
    ⟨complete_setReg_spec s x (s.reg y), complete_setReg_toNat_spec (BitVec.toNat_or ..),
      complete_setReg_toNat_spec (BitVec.toNat_and ..), complete_setReg_toNat_spec (BitVec.toNat_xor ..)⟩⟩

/-! ### SHR and SHL -/

theorem half8_toNat (a : Byte) : (half8 a).toNat = a.toNat / 2 := by
  have := a.isLt
  rw [half8, BitVec.toNat_ofNat]
  omega

theorem double8_toNat (a : Byte) : (double8 a).toNat = a.toNat * 2 % 256 :=
  BitVec.toNat_ofNat _ 8

/-- A remainder by 2 as a flag. -/
theorem ofNat_bit (n : Nat) : BitVec.ofNat 8 (n % 2) = if n % 2 = 1 then 1 else 0 := by
  rcases Nat.mod_two_eq_zero_or_one n with h | h <;> rw [h] <;> rfl

theorem shiftOutLowFlag_eq (a : Byte) : shiftOutLowFlag a = if a.getLsbD 0 then 1 else 0 := by
  have hbit : a.getLsbD 0 = true ↔ a.toNat % 2 = 1 := by
    simp [BitVec.getLsbD, Nat.testBit_eq_decide_div_mod_eq]
  simp only [shiftOutLowFlag, ofNat_bit, hbit]

/-- Bit 7 of a byte is the whole quotient by 128. -/
theorem shiftOutHighFlag_eq (a : Byte) : shiftOutHighFlag a = if a.getLsbD 7 then 1 else 0 := by
  have hbit : a.getLsbD 7 = true ↔ a.toNat / 128 % 2 = 1 := by
    simp [BitVec.getLsbD, Nat.testBit_eq_decide_div_mod_eq]
  have htop : a.toNat / 128 = a.toNat / 128 % 2 := by have := a.isLt; omega
  rw [shiftOutHighFlag, htop, ofNat_bit]
  simp only [hbit]

/-- Settles O35: the shifted value in V[X], written after the bit shifted out. -/
theorem shiftsSetTheBitShiftedOut : Obligations.ShiftsSetTheBitShiftedOut := by
  unfold Obligations.ShiftsSetTheBitShiftedOut
  refine fun x ign => ⟨decode_shr x ign, decode_shl x ign, fun s => ⟨?_, ?_⟩⟩
  · obtain ⟨t, hexec, hres, hflag, hframe⟩ :=
      complete_setFlagReg_spec s x (shiftOutLowFlag (s.reg x)) (half8 (s.reg x))
    exact ⟨t, hexec, by rw [hres, half8_toNat], fun hx => by rw [hflag hx, shiftOutLowFlag_eq], hframe⟩
  · obtain ⟨t, hexec, hres, hflag, hframe⟩ :=
      complete_setFlagReg_spec s x (shiftOutHighFlag (s.reg x)) (double8 (s.reg x))
    exact ⟨t, hexec, by rw [hres, double8_toNat], fun hx => by rw [hflag hx, shiftOutHighFlag_eq], hframe⟩

/-! ### LD F -/

/-- Five times a byte needs no more than 16 bits. -/
theorem glyphAddress_toNat (v : Byte) : (glyphAddress v).toNat = v.toNat * 5 := by
  have := v.isLt
  rw [glyphAddress, BitVec.toNat_ofNat]
  omega

/-- Settles O38: the step writes I alone. -/
theorem fontAddressIsFiveTimesVx : Obligations.FontAddressIsFiveTimesVx := by
  unfold Obligations.FontAddressIsFiveTimesVx
  refine fun x ign => ⟨decode_ldF x ign, fun s => ?_⟩
  obtain ⟨t, hexec, hi, hframe⟩ := complete_setIndex_spec s (glyphAddress (s.reg x))
  exact ⟨t, hexec, by rw [hi, glyphAddress_toNat], hframe⟩

/-! ### ADD I -/

theorem indexOverflowFlag_eq (i : Word) (a : Byte) :
    indexOverflowFlag i a = if i.toNat + a.toNat > 0xFFF then 1 else 0 := by
  simp [indexOverflowFlag, flagOf]

/-- Settles O39: the flag is written first and I advances by the V[X] found before it; nothing else is written. -/
theorem indexAddSetsOverflow : Obligations.IndexAddSetsOverflow := by
  unfold Obligations.IndexAddSetsOverflow
  refine fun x ign => ⟨decode_addI x ign, fun s => ⟨_, rfl, BitVec.toNat_ofNat _ 16, ?_, fun k hk => ?_, fun _ => rfl,
    ⟨rfl, rfl⟩, ⟨rfl, rfl⟩, ⟨rfl, rfl, rfl, rfl, rfl⟩, endsNormally_normal rfl rfl rfl⟩⟩
  · rw [reg_endStep, reg_advanceIndex, reg_setFlag, if_pos rfl, indexOverflowFlag_eq]
  · rw [reg_endStep, reg_advanceIndex, reg_setFlag, if_neg (List.ne_of_not_mem_cons hk)]

/-! ### RND -/

/-- Settles O40: V[X] alone is written, with the host's byte or the free value under the mask. -/
theorem rndMasksAnyByte : Obligations.RndMasksAnyByte := by
  unfold Obligations.RndMasksAnyByte
  refine fun x nn => ⟨decode_rnd x nn, fun s => ?_⟩
  obtain ⟨t, hexec, hres, hframe⟩ := complete_setReg_spec s x (s.rndByte &&& nn)
  refine ⟨t, hexec, fun b hb => ?_, fun hfree => ?_, hframe⟩
  · rw [hres, State.rndByte, hb, Option.getD_some]
  · rw [hres, State.rndByte, hfree, Option.getD_none]

end Sys2Proof.Machine
end

section
/-! PROOFS. SKP, SKNP and LD VX, K (46_keys_timers.md R180 to R182): the key a register names, and the scan of all keys. -/

namespace Sys2Proof.Machine

theorem keyPressed_of_lt (s : State) {k : Nat} (h : k < 16) : s.keyPressed k = s.keys[k] := by
  simp [State.keyPressed, h]

/-! ### SKP and SKNP -/

theorem exec_skp_of_key {s : State} {x : Nibble} (ign : Nibble) (h : (s.reg x).toNat < 16) :
    exec (.skp x ign) s = complete (skipIf s.keys[(s.reg x).toNat]) s := by
  simp only [exec, execSkp, keyOperand_of_le (Nat.not_lt.2 (Nat.le_of_lt_succ h)), keyPressed_of_lt s h]

theorem exec_sknp_of_key {s : State} {x : Nibble} (ign : Nibble) (h : (s.reg x).toNat < 16) :
    exec (.sknp x ign) s = complete (skipIf !s.keys[(s.reg x).toNat]) s := by
  simp only [exec, execSknp, keyOperand_of_le (Nat.not_lt.2 (Nat.le_of_lt_succ h)), keyPressed_of_lt s h]

/-- Settles O31: a register that names a key is a skip on that key or on its negation, any other the decode error of the
table of causes. -/
theorem skipOnKey : Obligations.SkipOnKey := by
  unfold Obligations.SkipOnKey
  refine fun x ign => ⟨decode_skp x ign, decode_sknp x ign, fun s => ⟨fun hkey => ⟨?_, ?_⟩, fun hpast => ⟨?_, ?_⟩⟩⟩
  · rw [exec_skp_of_key ign hkey]
    exact complete_skipIf_spec _ s
  · obtain ⟨t, hexec, hregs, hskip, hnext⟩ := complete_skipIf_spec (!s.keys[(s.reg x).toNat]) s
    rw [exec_sknp_of_key ign hkey]
    exact ⟨t, hexec, hregs, fun hup => hskip (by simp [hup]), fun hdown => hnext (by simp [hdown])⟩
  · have hcause : errorCause (.skp x ign) s = some .keyRange := if_pos hpast
    rw [exec_of_errorCause hcause]
    exact decodeError_spec .keyRange _ s
  · have hcause : errorCause (.sknp x ign) s = some .keyRange := if_pos hpast
    rw [exec_of_errorCause hcause]
    exact decodeError_spec .keyRange _ s

/-! ### LD VX, K -/

/-- The scan of the keys below `n`, lowest first. -/
def State.scanBelow (s : State) (n : Nat) : Option Nat :=
  (List.range n).foldl (fun found k => if s.keyPressed k then some k else found) none

theorem scanKeys_eq_scanBelow (s : State) : s.scanKeys = s.scanBelow 16 := rfl

/-- The last key looked at decides, and where it is not pressed the scan before it does. -/
theorem scanBelow_succ (s : State) (n : Nat) :
    s.scanBelow (n + 1) = if s.keyPressed n then some n else s.scanBelow n := by
  simp [State.scanBelow, List.range_succ]

theorem scanBelow_eq_none {s : State} {n : Nat} (h : ∀ k, k < n → s.keyPressed k = false) : s.scanBelow n = none := by
  induction n with
  | zero => rfl
  | succ n ih => rw [scanBelow_succ, if_neg (by simp [h n]), ih fun k hk => h k (by omega)]

/-- The scan answers a pressed key with none pressed above it (90_conflicts.md C4). -/
theorem scanBelow_eq_highest {s : State} {k n : Nat} (hk : k < n) (hdown : s.keyPressed k = true)
    (habove : ∀ j, k < j → j < n → s.keyPressed j = false) : s.scanBelow n = some k := by
  induction n with
  | zero => omega
  | succ n ih =>
    rw [scanBelow_succ]
    by_cases htop : k = n
    · rw [← htop, if_pos hdown]
    · rw [if_neg (by simp [habove n (by omega)]), ih (by omega) fun j hj hjn => habove j hj (by omega)]

theorem exec_ldVxK_of_key {s : State} {k : Nat} (x ign : Nibble) (h : s.scanKeys = some k) :
    exec (.ldVxK x ign) s = complete .normal (s.setReg x (BitVec.ofNat 8 k)) := by
  simp only [exec, execLdVxK, h]

/-- With no key pressed nothing is written in either mode (D16). -/
theorem exec_ldVxK_of_no_key {s : State} (x ign : Nibble) (h : s.scanKeys = none) :
    exec (.ldVxK x ign) s = complete (if s.params.keyWait = .scan then .normal else .hold) s := by
  cases hmode : s.params.keyWait with
  | scan => simp only [exec, execLdVxK, h, hmode, if_true]
  | block => simp [exec, execLdVxK, h, hmode]

/-- Settles O44: the scan finds the highest pressed key, which V[X] takes, or none, and then the mode decides on pc. -/
theorem keyWaitInBothModes : Obligations.KeyWaitInBothModes := by
  unfold Obligations.KeyWaitInBothModes
  refine fun x ign => ⟨decode_ldVxK x ign, fun s => ⟨fun k hdown habove => ?_, fun hup => ?_⟩⟩
  · have hscan : s.scanKeys = some k.val :=
      scanBelow_eq_highest k.isLt ((keyPressed_of_lt s k.isLt).trans hdown) fun j hkj hj =>
        (keyPressed_of_lt s hj).trans (habove ⟨j, hj⟩ hkj)
    have hbyte : (BitVec.ofNat 8 k.val).toNat = k.val := by
      have := k.isLt
      rw [BitVec.toNat_ofNat]; omega
    rw [exec_ldVxK_of_key x ign hscan]
    exact complete_setReg_toNat_spec hbyte
  · have hscan : s.scanKeys = none :=
      scanBelow_eq_none fun k hk => (keyPressed_of_lt s hk).trans (hup ⟨k, hk⟩)
    refine ⟨_, exec_ldVxK_of_no_key x ign hscan, onlyRegs_endStep [] _ none s, ticked_endStep _ _ rfl rfl, rfl,
      fun hmode => ?_, fun hmode => ?_⟩
    · rw [hmode, if_pos rfl]
      exact nextPc_normal_toNat s.pc
    · rw [hmode, if_neg (by decide)]
      exact nextPc_hold s.pc

end Sys2Proof.Machine
end

section
/-! PROOFS. DRW (45_display.md R171 to R173): the cells a sprite read at I hits, what one DRW does to them, and that a second
one undoes it. -/

namespace Sys2Proof.Machine

/-! ### The sprite at I -/

/-- The rows read at I hit the cells that `SpriteHits` names by addresses. -/
theorem rowsHit_readBlock_iff (s : State) (x0 y0 n cx cy : Nat) :
    RowsHit s.params.spriteEdge x0 y0 (s.readBlock n) cx cy ↔ SpriteHits s x0 y0 n cx cy := by
  constructor
  · rintro ⟨r, row, hrow, c, hc, hbit, hland⟩
    obtain ⟨hr, rfl⟩ := List.getElem?_eq_some_iff.1 hrow
    rw [getElem_readBlock] at hbit
    exact ⟨r, c, by simpa using hr, hc, hbit, hland⟩
  · rintro ⟨r, c, hr, hc, hbit, hland⟩
    have hr' : r < (s.readBlock n).length := by simpa using hr
    refine ⟨r, _, List.getElem?_eq_getElem hr', c, hc, ?_, hland⟩
    rw [getElem_readBlock]
    exact hbit

theorem spriteHits_lt {s : State} {x0 y0 n cx cy : Nat} (h : SpriteHits s x0 y0 n cx cy) : cx < 64 ∧ cy < 32 := by
  obtain ⟨r, c, -, -, -, hland⟩ := h
  exact lands_lt hland

/-- The hits depend on the sprite's bytes, on I and on the edge rule alone. -/
theorem spriteHits_congr {s t : State} (hi : t.i = s.i) (hmem : SameMem s t) (hparams : t.params = s.params)
    (x0 y0 n cx cy : Nat) : SpriteHits t x0 y0 n cx cy ↔ SpriteHits s x0 y0 n cx cy := by
  simp only [SpriteHits, hi, hparams, hmem _]

/-! ### One DRW -/

/-- What DRW draws: the display and the collision it leaves. -/
def State.drawn (s : State) (x y n : Nibble) : Drawing :=
  drawRows s.params.spriteEdge (s.reg x).toNat (s.reg y).toNat (s.readBlock n.toNat) ⟨s.disp, false⟩

/-- The display `d` is that of `s` with the cells that the sprite hits inverted. -/
def InvertsHits (s : State) (x y n : Nibble) (d : Display) : Prop :=
  ∀ cx cy, cx < 64 → cy < 32 →
    (SpriteHits s (s.reg x).toNat (s.reg y).toNat n.toNat cx cy → Display.cell d cx cy = !Display.cell s.disp cx cy) ∧
    (¬SpriteHits s (s.reg x).toNat (s.reg y).toNat n.toNat cx cy → Display.cell d cx cy = Display.cell s.disp cx cy)

/-- A sprite of a 4-bit number of rows is no higher than the display, as `drawRows_spec` asks. -/
theorem drawn_invertsHits (s : State) (x y n : Nibble) : InvertsHits s x y n (s.drawn x y n).disp := by
  have hlen : (s.readBlock n.toNat).length ≤ 32 := by have := n.isLt; rw [length_readBlock]; omega
  have hcells := (drawRows_spec s.params.spriteEdge (s.reg x).toNat (s.readBlock n.toNat) (s.reg y).toNat
    ⟨s.disp, false⟩ hlen).1
  simp only [rowsHit_readBlock_iff] at hcells
  exact hcells

/-- The collision: some cell went from 1 to 0 (R173). -/
theorem drawn_collision_iff (s : State) (x y n : Nibble) : (s.drawn x y n).collision = true ↔
    ∃ cx cy, cx < 64 ∧ cy < 32 ∧ Display.cell s.disp cx cy = true ∧ Display.cell (s.drawn x y n).disp cx cy = false := by
  have hlen : (s.readBlock n.toNat).length ≤ 32 := by have := n.isLt; rw [length_readBlock]; omega
  have hflag : (s.drawn x y n).collision = true ↔ _ := (drawRows_spec s.params.spriteEdge (s.reg x).toNat
    (s.readBlock n.toNat) (s.reg y).toNat ⟨s.disp, false⟩ hlen).2
  simp only [rowsHit_readBlock_iff, Bool.false_eq_true, false_or] at hflag
  rw [hflag]
  constructor
  · rintro ⟨cx, cy, hhit, hset⟩
    obtain ⟨hx, hy⟩ := spriteHits_lt hhit
    exact ⟨cx, cy, hx, hy, hset, by rw [(drawn_invertsHits s x y n cx cy hx hy).1 hhit, hset]; rfl⟩
  · rintro ⟨cx, cy, hx, hy, hset, hclear⟩
    refine ⟨cx, cy, ?_, hset⟩
    by_contra hmiss
    rw [(drawn_invertsHits s x y n cx cy hx hy).2 hmiss, hset] at hclear
    cases hclear

theorem exec_drw_of_fit {s : State} (x y : Nibble) {n : Nibble} (h : n.toNat = 0 ∨ s.i.toNat + n.toNat ≤ 0x1000) :
    exec (.drw x y n) s = complete .normal
      { s.setFlag (flagOf (s.drawn x y n).collision) with disp := (s.drawn x y n).disp, dirty := true } :=
  if_pos ((blockOk_iff s n.toNat).2 h)

theorem exec_drw_of_not_fit {s : State} (x y : Nibble) {n : Nibble}
    (h : ¬(n.toNat = 0 ∨ s.i.toNat + n.toNat ≤ 0x1000)) :
    exec (.drw x y n) s = decodeError .memRange (0xD#4 ++ x ++ y ++ n) s :=
  if_neg (by rwa [blockOk_iff])

theorem flagOf_eq_zero_or_one (c : Bool) : flagOf c = 0 ∨ flagOf c = 1 := by
  cases c with
  | false => exact .inl rfl
  | true => exact .inr rfl

theorem flagOf_eq_one_iff (c : Bool) : flagOf c = 1 ↔ c = true := by
  cases c with
  | false => exact ⟨fun h => absurd h (by decide), fun h => by cases h⟩
  | true => exact ⟨fun _ => rfl, fun _ => rfl⟩

/-- A step that writes VF and then the display, and nothing else. -/
theorem complete_setFlag_setDisplay_spec (s : State) (f : Byte) (d : Display) :
    ∃ t, complete .normal { s.setFlag f with disp := d, dirty := true } = .next t ∧ t.disp = d ∧ t.reg VF = f ∧
      t.dirty = true ∧ SameRegsBut [VF] s t ∧ t.i = s.i ∧ SameMem s t ∧ SameStack s t ∧ SameHostSide s t ∧
      EndsNormally 2 s t :=
  ⟨_, rfl, rfl, reg_setReg_same s VF f, rfl, fun _ hk => reg_setReg_of_ne s f (List.ne_of_not_mem_cons hk), rfl,
    fun _ => rfl, ⟨rfl, rfl⟩, ⟨rfl, rfl, rfl, rfl, rfl⟩, endsNormally_normal rfl rfl rfl⟩

/-- Settles O42: the display is the drawn one, VF its collision, and the range check decides before any access. -/
theorem drwDrawsTheSprite : Obligations.DrwDrawsTheSprite := by
  unfold Obligations.DrwDrawsTheSprite
  refine fun x y n => ⟨decode_drw x y n, fun s => ⟨fun hfit => ?_, fun hrows hpast => ?_⟩⟩
  · obtain ⟨t, hexec, hdisp, hflag, hframe⟩ :=
      complete_setFlag_setDisplay_spec s (flagOf (s.drawn x y n).collision) (s.drawn x y n).disp
    refine ⟨t, by rw [exec_drw_of_fit x y (by omega), hexec], ?_, ?_, ?_, hframe⟩
    · rw [hdisp]; exact drawn_invertsHits s x y n
    · rw [hflag]; exact flagOf_eq_zero_or_one _
    · rw [hflag, hdisp, flagOf_eq_one_iff]; exact drawn_collision_iff s x y n
  · rw [exec_drw_of_not_fit x y (by omega)]
    exact decodeError_spec .memRange _ s

/-! ### Two DRWs -/

/-- The cells are all there is to a display: bit k is cell (k mod 64, k / 64). -/
theorem display_ext {d e : Display} (h : ∀ cx cy, cx < 64 → cy < 32 → Display.cell d cx cy = Display.cell e cx cy) :
    d = e := by
  apply BitVec.eq_of_getLsbD_eq
  intro k hk
  have hcell := h (k % 64) (k / 64) (by omega) (by omega)
  rwa [Display.cell, Display.cell, Nat.mod_add_div] at hcell

/-- Inverting the same cells twice restores each of them. -/
theorem disp_eq_of_invertsHits_twice {s t : State} {x y n : Nibble} {d : Display} (hx : t.reg x = s.reg x)
    (hy : t.reg y = s.reg y) (hi : t.i = s.i) (hmem : SameMem s t) (hparams : t.params = s.params)
    (hfirst : InvertsHits s x y n t.disp) (hsecond : InvertsHits t x y n d) : d = s.disp := by
  refine display_ext fun cx cy hcx hcy => ?_
  obtain ⟨hit, miss⟩ := hfirst cx cy hcx hcy
  obtain ⟨hit', miss'⟩ := hsecond cx cy hcx hcy
  rw [hx, hy, spriteHits_congr hi hmem hparams] at hit' miss'
  by_cases h : SpriteHits s (s.reg x).toNat (s.reg y).toNat n.toNat cx cy
  · rw [hit' h, hit h, Bool.not_not]
  · rw [miss' h, miss h]

/-- A DRW that answers `t`, by whether its sprite fits: it draws and leaves everything else that a DRW reads, or it leaves
the display too. -/
theorem exec_drw_next {x y n : Nibble} {s t : State} (h : exec (.drw x y n) s = .next t) :
    SameRegsBut [VF] s t ∧ t.i = s.i ∧ SameMem s t ∧ t.params = s.params ∧
      (n.toNat = 0 ∨ s.i.toNat + n.toNat ≤ 0x1000 → InvertsHits s x y n t.disp) ∧
      (¬(n.toNat = 0 ∨ s.i.toNat + n.toNat ≤ 0x1000) → t.disp = s.disp) := by
  by_cases hfit : n.toNat = 0 ∨ s.i.toNat + n.toNat ≤ 0x1000
  · rw [exec_drw_of_fit x y hfit] at h
    cases h
    exact ⟨fun _ hk => reg_setReg_of_ne s _ (List.ne_of_not_mem_cons hk), rfl, fun _ => rfl, rfl,
      fun _ => drawn_invertsHits s x y n, fun hno => absurd hfit hno⟩
  · rw [exec_drw_of_not_fit x y hfit] at h
    cases h
    exact ⟨fun _ _ => rfl, rfl, fun _ => rfl, rfl, fun hyes => absurd hyes hfit, fun _ => rfl⟩

/-- Settles O43: the first draw leaves I, memory and the coordinates, so the second hits the same cells; where the sprite
does not fit neither draws. -/
theorem drawingTwiceRestoresTheDisplay : Obligations.DrawingTwiceRestoresTheDisplay := by
  unfold Obligations.DrawingTwiceRestoresTheDisplay
  intro x y n s t u hx hy ht hu
  obtain ⟨hregs, hi, hmem, hparams, hdraw, hkeep⟩ := exec_drw_next ht
  obtain ⟨-, -, -, -, hdraw', hkeep'⟩ := exec_drw_next hu
  rw [hi] at hdraw' hkeep'
  by_cases hfit : n.toNat = 0 ∨ s.i.toNat + n.toNat ≤ 0x1000
  · exact disp_eq_of_invertsHits_twice (hregs x (by simpa using hx)) (hregs y (by simpa using hy)) hi hmem hparams
      (hdraw hfit) (hdraw' hfit)
  · rw [hkeep' hfit, hkeep hfit]

end Sys2Proof.Machine
end

section
/-! PROOFS. LD [I], VX and then LD VX, [I] at the same I (47_memory_transfer.md R192, R193; the source's property S7). -/

namespace Sys2Proof.Machine

/-- Settles O49: the bytes the load reads at I are those the store left there, one for each register. -/
theorem storeThenLoadRoundTrips : Obligations.StoreThenLoadRoundTrips := by
  unfold Obligations.StoreThenLoadRoundTrips
  intro x s t v hwf hfit hstore hmem hi
  obtain ⟨t', hstore', hstored, -⟩ := ((storeRegistersToMemory x).2 s hwf).1 hfit
  obtain rfl : t' = t := by rw [hstore] at hstore'; cases hstore'; rfl
  obtain ⟨u, hload, hloaded, -⟩ := ((loadRegistersFromMemory x).2 v).1 (by rwa [hi])
  refine ⟨u, hload, fun k hk => ?_⟩
  rw [hloaded k hk, hi, readByte_eq_of_mem_eq hmem, hstored k hk]

end Sys2Proof.Machine
end
